-- ==== Sys2Proof/Config.lean ====
section
/-! DEFINITION. What this implementation fixes: the parameters of 00_scope.md R5 to R7. The parameter LATENCY is open
(70_reset_and_hazards.md R112) and is no number here: it is the place of the engine's turn in `State.schedule`. -/

namespace Sys2Proof.Config

/-- `OPERAND_WIDTH`, the spec's `W` (00_scope.md R5): this hardware takes 1024. -/
abbrev operandWidth : Nat := 1024

/-- `BUS_WIDTH` (20_memory.md R33). -/
abbrev busWidth : Nat := 32

/-- `ADDR_WIDTH` (20_memory.md R31). -/
abbrev addrWidth : Nat := 12

/-- `NW = W / 32`, the number of 32-bit words of an operand register (00_scope.md R6). -/
abbrev operandWords : Nat := operandWidth / busWidth

/-- The constraint of 00_scope.md R5 on a value of `W`. -/
abbrev LegalWidth (w : Nat) : Prop := w % 32 = 0 ∧ 32 ≤ w ∧ w ≤ 2048

/-- `BLOCK_ID` (00_scope.md R7, 10_state.md R19): MAGIC 0x4D4D in bits 31..16, REV 1 in bits 15..0. -/
def blockId : BitVec 32 := 0x4D4D0001#32

end Sys2Proof.Config
end

