-- ==== Sys2Proof/Word.lean ====
section
/-! DEFINITION. The word types: what the bus moves, what it addresses, and what an operand register holds. The widths
are written as numerals, so that arithmetic over them needs no unfolding; the theorems below tie them to Config. -/

namespace Sys2Proof

/-- One 32-bit bus word (20_memory.md R33). A command word is one such word (30_encoding.md R53). -/
abbrev Word := BitVec 32

/-- A byte address within the 4 KiB register region (20_memory.md R31). -/
abbrev Addr := BitVec 12

/-- The contents of OPA, OPB, MOD or RES: an unsigned integer of `W` bits (00_scope.md R5). -/
abbrev Operand := BitVec 1024

theorem word_width : Word = BitVec Config.busWidth := rfl
theorem addr_width : Addr = BitVec Config.addrWidth := rfl
theorem operand_width : Operand = BitVec Config.operandWidth := rfl

/-- `W = 1024` (00_scope.md R5). -/
@[simp] theorem Config.operandWidth_eq : Config.operandWidth = 1024 := rfl

/-- `NW = 32` (00_scope.md R6). -/
@[simp] theorem Config.operandWords_eq : Config.operandWords = 32 := rfl

end Sys2Proof
end

