-- ==== Sys2Proof/Syntax.lean ====
section
/-! DEFINITION. The instructions: one constructor per row of spec/opcode_table.json. A command word carries no operand
field (30_encoding.md R54): every operand is the whole of a fixed register (R56), so no constructor has an argument.
The host's own statements (30_encoding.md R60, R61) are no instructions of the block; they stand in
Machine/HostSyntax.lean. -/

namespace Sys2Proof

/-- The four legal commands (30_encoding.md R55). -/
inductive Instr where
  /-- `MODMUL`, modular multiplication (40_modmul.md R62). -/
  | modmul
  /-- `MONTMUL`, Montgomery product (40_modmul.md R64). -/
  | montmul
  /-- `MODEXP`, modular exponentiation (41_modexp.md R67). -/
  | modexp
  /-- `MODINV`, modular multiplicative inverse (42_modinv.md R71). -/
  | modinv
deriving DecidableEq, Repr

end Sys2Proof
end

