-- ==== Sys2Proof/Decode.lean ====
section
/-! DEFINITION. Command words: the fields of 30_encoding.md R53, the total decoder of R58 (rejecting by the name of
the reason R57 gives), and the encoder of R55. -/

namespace Sys2Proof

/-- Field OP, bits 3..0 of a command word (30_encoding.md R53). -/
def opField (c : Word) : BitVec 4 := c.extractLsb' 0 4

/-- Field RSV, bits 31..4 of a command word, which must be 0 (30_encoding.md R53). -/
def rsvField (c : Word) : BitVec 28 := c.extractLsb' 4 28

/-- Why a word is illegal: the three classes of 30_encoding.md R57, which do not overlap. -/
inductive IllegalReason where
  /-- OP = 0x0, with any RSV. -/
  | opZero
  /-- OP = 0x5 to 0xF (reserved for later revisions), with any RSV. -/
  | opReserved
  /-- OP = 0x1 to 0x4, with RSV not 0. -/
  | rsvNotZero
deriving DecidableEq, Repr

/-- What decoding a word answers (30_encoding.md R58): a command, or ILLEGAL with its reason. -/
inductive Decoded where
  | command (i : Instr)
  | illegal (why : IllegalReason)
deriving DecidableEq, Repr

/-- A legal OP needs RSV = 0 (30_encoding.md R53, R57). -/
def requireRsvZero (c : Word) (i : Instr) : Decoded :=
  if rsvField c = 0 then .command i else .illegal .rsvNotZero

/-- `Decode(c)` (30_encoding.md R58), total on every 32-bit word. -/
def decode (c : Word) : Decoded :=
  match (opField c).toNat with
  | 0 => .illegal .opZero
  | 1 => requireRsvZero c .modmul
  | 2 => requireRsvZero c .montmul
  | 3 => requireRsvZero c .modexp
  | 4 => requireRsvZero c .modinv
  | _ => .illegal .opReserved

/-- The instruction of a decoding, if there is one. -/
def Decoded.instr? : Decoded → Option Instr
  | .command i => some i
  | .illegal _ => none

/-- The operation code of a command (30_encoding.md R55, column OP). -/
def opCode : Instr → BitVec 4
  | .modmul => 0x1
  | .montmul => 0x2
  | .modexp => 0x3
  | .modinv => 0x4

/-- The command word of an instruction: RSV = 0 above OP (30_encoding.md R53, R55). -/
def encode (i : Instr) : Word := 0#28 ++ opCode i

/-- The command word whose bits are `w` below bit `nbits` and 0 above, bit 0 the least significant. Every command is
one 32-bit word (30_encoding.md R59), exchanged as a bus word, so no byte order arises (20_memory.md R41). -/
def tableWord (nbits w : Nat) : Word := BitVec.ofNat 32 (w % 2 ^ nbits)

/-- The instruction the decoder reads from an instruction numbered as spec/opcode_table.json numbers its bits. -/
def decodeTableWord (nbits w : Nat) : Option Instr := (decode (tableWord nbits w)).instr?

end Sys2Proof
end

