-- ==== Sys2Proof/Machine/Arith.lean ====
section
/-! DEFINITION. The exact arithmetic of the three units over natural numbers. MODEXP and MODINV follow the spec's
reference sequences (41_modexp.md R68, 42_modinv.md R72), which the kernel can run; that they give the values of
R67 and R71 is stated in Certificates/Slice0/Obligations.lean. DEDUCED, log 9. -/

namespace Sys2Proof.Machine

/-- `bitlen(e)`: binary digits without leading zeros, 0 for 0 (00_scope.md R9). -/
def bitlen (e : Nat) : Nat := if e = 0 then 0 else Nat.log2 e + 1

/-- `mulmod(x, y, m) = (x * y) mod m`, exact (41_modexp.md R68, 40_modmul.md R63). -/
def mulmod (x y m : Nat) : Nat := x * y % m

/-- The loop of `ModExpRef` (41_modexp.md R68) over bits `j - 1` down to 0 of `e`. -/
def modExpLoop (base e m : Nat) : (j : Nat) → (acc : Nat) → Nat
  | 0, acc => acc
  | j + 1, acc =>
    modExpLoop base e m j
      (if e.testBit j then mulmod (mulmod acc acc m) base m else mulmod acc acc m)

/-- `ModExpRef` started at bit `k - 1`: the accumulator starts at `1 mod m` (41_modexp.md R68). -/
def modExpFrom (k base e m : Nat) : Nat := modExpLoop base e m k (1 % m)

/-- `ModExpRef(base, e, m)`: the scan starts at bit `bitlen(e) - 1` (41_modexp.md R68). -/
def modExp (base e m : Nat) : Nat := modExpFrom (bitlen e) base e m

/-- The loop of `ModInvRef` (42_modinv.md R72): it ends when the remainder `r1` is 0, and answers `(r0, s0)`. The
first argument bounds the iterations; the loop needs at most `2 * bitlen(r1)` of them (log 9). -/
def euclidLoop : (bound : Nat) → (r0 r1 : Nat) → (s0 s1 : Int) → Nat × Int
  | 0, r0, _, s0, _ => (r0, s0)
  | n + 1, r0, r1, s0, s1 =>
    if r1 = 0 then (r0, s0)
    else euclidLoop n r1 (r0 - r0 / r1 * r1) s1 (s0 - (r0 / r1 : Nat) * s1)

/-- `ModInvRef(v, m)` up to its two tests: `(gcd(v, m), s0)` with `v * s0 = gcd(v, m) (mod m)` (42_modinv.md R72). -/
def euclid (v m : Nat) : Nat × Int := euclidLoop (2 * bitlen m) v m 1 0

/-- `s0 mod m`, in `[0, m)` for a negative `s0` too (42_modinv.md R72): the inverse of `v` where there is one. -/
def bezoutCoeff (v m : Nat) : Nat := ((euclid v m).2 % (m : Int)).toNat

end Sys2Proof.Machine
end

