-- ==== Sys2Proof/Machine/RegMap.lean ====
section
/-! DEFINITION. The register map: which register a byte address names (20_memory.md R31 to R34, R38, R40, R42). -/

namespace Sys2Proof.Machine

/-- The four operand and result registers (10_state.md R18). -/
inductive Reg where
  | opa
  | opb
  | mod
  | res
deriving DecidableEq, Repr

/-- What an address names (20_memory.md R32). -/
inductive Target where
  /-- ID, offset 0x000. -/
  | id
  /-- PARAM, offset 0x004. -/
  | param
  /-- CTRL, offset 0x008. -/
  | ctrl
  /-- STATUS, offset 0x00C. -/
  | status
  /-- CMD, offset 0x010. -/
  | cmd
  /-- Word `i` (0 to 63) of a register's 256-byte window. -/
  | window (x : Reg) (i : Nat)
  /-- A reserved offset (20_memory.md R40). -/
  | reserved
deriving DecidableEq, Repr

/-- `addr[11:2]`: the word addressed; bits 1..0 are ignored (20_memory.md R33, R42). -/
def wordIndex (a : Addr) : Nat := (a.extractLsb' 2 10).toNat

/-- `off = 4 * addr[11:2]` (20_memory.md R35, R36). -/
def offset (a : Addr) : Nat := 4 * wordIndex a

/-- `[OPA, OPB, MOD, RES][n]` (20_memory.md R35). -/
def windowReg : Nat → Reg
  | 0 => .opa
  | 1 => .opb
  | 2 => .mod
  | _ => .res

/-- What the offset `off` names (20_memory.md R32, R35). -/
def offsetTarget (off : Nat) : Target :=
  if off = 0x000 then .id
  else if off = 0x004 then .param
  else if off = 0x008 then .ctrl
  else if off = 0x00C then .status
  else if off = 0x010 then .cmd
  else if 0x100 ≤ off ∧ off < 0x500 then
    .window (windowReg ((off - 0x100) / 0x100)) ((off - 0x100) % 0x100 / 4)
  else .reserved

/-- What the byte address `a` names. -/
def target (a : Addr) : Target := offsetTarget (offset a)

/-- The window base `B_X` (20_memory.md R34). -/
def windowBase : Reg → Nat
  | .opa => 0x100
  | .opb => 0x200
  | .mod => 0x300
  | .res => 0x400

/-- `B_X + 4*i`, the address of word `i` of a register (20_memory.md R34). -/
def windowAddr (x : Reg) (i : Nat) : Addr := BitVec.ofNat 12 (windowBase x + 4 * i)

/-- `Word(X, i) = X[32*i+31 : 32*i]` (00_scope.md R10, 20_memory.md R34). -/
def word (x : Operand) (i : Nat) : Word := x.extractLsb' (32 * i) 32

/-- `SetWord(X, i, d)`: those 32 bits of `X` become `d`, every other bit stays (00_scope.md R10). -/
def setWord (x : Operand) (i : Nat) (d : Word) : Operand :=
  (x &&& ~~~((BitVec.allOnes 32).setWidth 1024 <<< (32 * i))) |||
    (d.setWidth 1024 <<< (32 * i))

/-- `n[32*i+31 : 32*i]` of a natural number (30_encoding.md R61). -/
def natWord (n i : Nat) : Word := BitVec.ofNat 32 (n / 2 ^ (32 * i))

end Sys2Proof.Machine
end

