-- ==== Sys2Proof/Machine/HostSyntax.lean ====
section
/-! DEFINITION. The notation of host programs: the statements of 30_encoding.md R60 and the pseudo-instructions of
R61 with their expansions. Host variables and labels are numbered (log 16). -/

namespace Sys2Proof.Machine

/-- A host statement (30_encoding.md R60). Variables and labels are numbers; the words `v_0`, `v_1`, … of a multi-word
variable `v` are the variables `v + 0`, `v + 1`, … (log 16). -/
inductive HostStmt where
  /-- `WR off, data`: one `BusWrite(off, data)`. -/
  | wr (off : Addr) (data : Word)
  /-- `RD off -> v`: one `BusRead(off)`, the result kept in `v`. -/
  | rd (off : Addr) (v : Nat)
  /-- `label:`. -/
  | label (l : Nat)
  /-- `BNZ v, mask, label`: jump if `(v & mask) != 0`. -/
  | bnz (v : Nat) (mask : Word) (l : Nat)
  /-- `BZ v, mask, label`: jump if `(v & mask) = 0`. -/
  | bz (v : Nat) (mask : Word) (l : Nat)
deriving DecidableEq, Repr

/-- The label a statement declares, if it is one. -/
def HostStmt.declares? : HostStmt → Option Nat
  | .label l => some l
  | _ => none

/-- The label a statement may jump to, if it is a branch. -/
def HostStmt.jumpsTo? : HostStmt → Option Nat
  | .bnz _ _ l => some l
  | .bz _ _ l => some l
  | _ => none

/-- The numbers of the statements that declare label `l`, counting from `k`. -/
def labelPositions (l : Nat) : (k : Nat) → List HostStmt → List Nat
  | _, [] => []
  | k, .label l' :: rest =>
    if l' = l then k :: labelPositions l (k + 1) rest else labelPositions l (k + 1) rest
  | k, _ :: rest => labelPositions l (k + 1) rest

/-- A pseudo-instruction (30_encoding.md R61). -/
inductive Pseudo where
  /-- `MODMUL`, `MONTMUL`, `MODEXP` or `MODINV`: the CMD write of the command's word. -/
  | command (i : Instr)
  /-- `LD X, n`: write all words of `X`. -/
  | ld (x : Reg) (n : Nat)
  /-- `LDLO X, n`: write the low words only. -/
  | ldlo (x : Reg) (n : Nat)
  /-- `WAITDONE -> s`, with the fresh label it uses. -/
  | waitDone (s : Nat) (fresh : Nat)
  /-- `GET RES -> v`: read all words of RES. -/
  | get (v : Nat)
  /-- `GETLO RES, k -> v`: read the first `k` words of RES. -/
  | getlo (k : Nat) (v : Nat)
  /-- `CLRDONE`. -/
  | clrDone
  /-- `SRST`. -/
  | srst
deriving DecidableEq, Repr

/-- The writes of words `0` to `k - 1` of `n` into the window of `X`, in ascending order (30_encoding.md R61). -/
def loadWords (x : Reg) (n k : Nat) : List HostStmt :=
  (List.range k).map fun i => .wr (windowAddr x i) (natWord n i)

/-- The reads of words `0` to `k - 1` of RES into `v_0`, `v_1`, … (30_encoding.md R61). -/
def readWords (k : Nat) (v : Nat) : List HostStmt :=
  (List.range k).map fun i => .rd (windowAddr .res i) (v + i)

/-- `k = max(1, ceil(bitlen(n)/32))`, the words `LDLO` writes (30_encoding.md R61). -/
def lowWords (n : Nat) : Nat := max 1 ((bitlen n + 31) / 32)

/-- The expansion of a pseudo-instruction (30_encoding.md R61). -/
def Pseudo.expand : Pseudo → List HostStmt
  | .command i => [.wr 0x010 (encode i)]
  | .ld x n => loadWords x n Config.operandWords
  | .ldlo x n => loadWords x n (lowWords n)
  | .waitDone s l => [.label l, .rd 0x00C s, .bz s 0x2 l]
  | .get v => readWords Config.operandWords v
  | .getlo k v => readWords k v
  | .clrDone => [.wr 0x00C 0x00000002]
  | .srst => [.wr 0x008 0x00000002]

end Sys2Proof.Machine
end

