-- ==== Sys2Proof/Machine/State.lean ====
section
/-! DEFINITION. The state of the system as plain data: the block's registers, flags and phase (10_state.md R13), the
level of its reset input, and the model's own fields for the host agent and for the order of events. -/

namespace Sys2Proof.Machine

/-- PHASE (10_state.md R30): no command in execution, or the accepted command word not yet completed. -/
inductive Phase where
  | idle
  | busy (c : Word)
deriving DecidableEq, Repr

/-- The error codes a completion can report (60_exceptions.md R79), code 0 apart. -/
inductive ErrCode where
  /-- Code 1: `MOD = 0`. -/
  | invalidModulus
  /-- Code 2: `MOD >= 1` and `gcd(OPA, MOD) != 1`; MODINV only. -/
  | noInverse
  /-- Code 3: `MOD` even and non-zero; MONTMUL only. -/
  | evenModulus
  /-- Code 4: the command word decodes to ILLEGAL. -/
  | illegalCommand
deriving DecidableEq, Repr

/-- How a command completes (00_scope.md R10): `finish OK(r)` or `finish ERR(code)`. -/
inductive Completion where
  | ok (r : Nat)
  | err (code : ErrCode)
deriving DecidableEq, Repr

/-- Whose turn it is in the global order of events (00_scope.md R8, 20_memory.md R45). -/
inductive Turn where
  /-- The host executes its next statement; a label or a branch takes a turn too. DESIGN CHOICE, log 17. -/
  | host
  /-- The engine may take its completion step. -/
  | engine
  /-- `rst_n` falls (70_reset_and_hazards.md R94). -/
  | assertReset
  /-- `rst_n` returns to 1 (70_reset_and_hazards.md R94). -/
  | releaseReset
deriving DecidableEq, Repr

/-- The host agent: its program, the number of its next statement, and its variables as (number, word) pairs with
strictly rising numbers. None of it is state of the block (30_encoding.md R60). DESIGN CHOICE, log 4. -/
structure HostAgent where
  program : List HostStmt
  position : Nat
  vars : List (Nat × Word)
deriving DecidableEq, Repr

/-- The state. The first nine fields are the block's registers, flags and phase (10_state.md R13); ID and PARAM are
constants of the one operation that reads registers; STATUS.BUSY, STATUS.ERR and `irq` are views (R13). -/
structure State where
  /-- OPA, operand register A (10_state.md R14). -/
  opa : Operand
  /-- OPB, operand register B (10_state.md R15). -/
  opb : Operand
  /-- MOD, modulus register (10_state.md R16). -/
  mod : Operand
  /-- RES, result register (10_state.md R17). -/
  res : Operand
  /-- CTRL.IE (10_state.md R21). -/
  ie : Bool
  /-- STATUS.DONE (10_state.md R24). -/
  done : Bool
  /-- STATUS.COLL (10_state.md R26). -/
  coll : Bool
  /-- STATUS.ERRCODE (10_state.md R25). -/
  errcode : BitVec 4
  /-- PHASE (10_state.md R30). -/
  phase : Phase
  /-- The level of the `rst_n` input (20_memory.md R52, 70_reset_and_hazards.md R94). -/
  rstN : Bool
  /-- The host agent (00_scope.md R8). -/
  host : HostAgent
  /-- The turns still to come, oldest first; any list is an order 20_memory.md R46 admits. DESIGN CHOICE, log 2. -/
  schedule : List Turn
deriving DecidableEq, Repr

/-- Why the machine stops with a fault. The block itself has none (60_exceptions.md R82); these are the host
program's own errors, to which 30_encoding.md R60 gives no effect (log 5). -/
inductive Fault where
  /-- Raised by a host branch on a variable no `RD` has assigned. Safe: the model stops where R60 gives no value. -/
  | hostVarUnset (v : Nat)
  /-- Raised by a taken host branch to a label the program does not declare. Safe: no statement could run next. -/
  | hostLabelMissing (l : Nat)
  /-- Raised by a taken host branch to a label declared more than once. Safe: R60 does not say which is meant. -/
  | hostLabelAmbiguous (l : Nat)
deriving DecidableEq, Repr

/-- Why the model gives no meaning to a step. -/
inductive Refusal where
  /-- Raised by an arm of `exec` whose instruction has no meaning yet; no arm does. Safe: nothing is claimed. -/
  | notModelled (mnemonic : String)
  /-- Raised by a bus transaction while `rst_n = 0` (70_reset_and_hazards.md R95: a model "refuses it"). Safe. -/
  | transactionDuringReset (off : Addr)
deriving DecidableEq, Repr

/-- The host agent with no program placed. DESIGN CHOICE, log 4. -/
def HostAgent.empty : HostAgent := { program := [], position := 0, vars := [] }

/-- The machine right after reset (10_state.md R13's table, 70_reset_and_hazards.md R94, R97): every register and
flag 0, PHASE idle, `rst_n` back at 1 (log 7), no host program placed and no turn fixed (log 2, log 4). -/
def State.reset : State where
  opa := 0
  opb := 0
  mod := 0
  res := 0
  ie := false
  done := false
  coll := false
  errcode := 0
  phase := .idle
  rstN := true
  host := HostAgent.empty
  schedule := []

end Sys2Proof.Machine
end

