-- ==== Sys2Proof/Machine/Flags.lean ====
section
/-! DEFINITION. Flags and control words: the views STATUS.BUSY and STATUS.ERR, the words STATUS and CTRL read as, the
codes of ERRCODE, and the `irq` output. -/

namespace Sys2Proof.Machine

/-- STATUS.BUSY is a view of PHASE (10_state.md R13, R23). -/
def State.busy (s : State) : Bool :=
  match s.phase with
  | .idle => false
  | .busy _ => true

/-- STATUS.ERR is not stored: it reads 1 exactly when ERRCODE is not 0 (10_state.md R25). -/
def State.errFlag (s : State) : Bool := s.errcode != 0

/-- The word STATUS reads as: `{20'b0, ERRCODE, 4'b0, COLL, ERR, DONE, BUSY}` (10_state.md R22). -/
def State.statusWord (s : State) : Word :=
  0#20 ++ s.errcode ++ 0#4 ++ BitVec.ofBool s.coll ++ BitVec.ofBool s.errFlag ++ BitVec.ofBool s.done ++
    BitVec.ofBool s.busy

/-- The word CTRL reads as: `{30'b0, 1'b0, CTRL.IE}`; SRST reads 0 (10_state.md R21). -/
def State.ctrlWord (s : State) : Word := 0#30 ++ 0#1 ++ BitVec.ofBool s.ie

/-- The word PARAM reads as: `W` in bits 15..0, 0 above (10_state.md R20). -/
def paramWord : Word := 0#16 ++ BitVec.ofNat 16 Config.operandWidth

/-- The `irq` output: `CTRL.IE AND STATUS.DONE`, a level (60_exceptions.md R84, R85). -/
def State.irq (s : State) : Bool := s.ie && s.done

/-- The code of an error, bits 11..8 of STATUS (60_exceptions.md R79). -/
def ErrCode.bits : ErrCode → BitVec 4
  | .invalidModulus => 1
  | .noInverse => 2
  | .evenModulus => 3
  | .illegalCommand => 4

end Sys2Proof.Machine
end

