-- ==== Sys2Proof/Machine/Operands.lean ====
section
/-! DEFINITION. Operand access: the one place that reads or writes OPA, OPB, MOD and RES by name, and the operands of
the commands as natural numbers (30_encoding.md R54, R56). -/

namespace Sys2Proof.Machine

/-- The contents of a register. -/
def State.reg (s : State) : Reg → Operand
  | .opa => s.opa
  | .opb => s.opb
  | .mod => s.mod
  | .res => s.res

/-- Replace the contents of a register. -/
def State.setReg (s : State) (x : Reg) (v : Operand) : State :=
  match x with
  | .opa => { s with opa := v }
  | .opb => { s with opb := v }
  | .mod => { s with mod := v }
  | .res => { s with res := v }

/-- Operand `a = OPA` as an unsigned natural number (30_encoding.md R54): `a`, `base` or `value` (R56). -/
def State.operandA (s : State) : Nat := s.opa.toNat

/-- Operand `b = OPB`: `b` or `exponent` (30_encoding.md R54, R56). -/
def State.operandB (s : State) : Nat := s.opb.toNat

/-- Operand `m = MOD`: the modulus (30_encoding.md R54, R56). -/
def State.modulus (s : State) : Nat := s.mod.toNat

/-- What a read of word `i` of a window returns: words `NW` to 63 are unimplemented and read 0
(20_memory.md R35, R37 to R39). -/
def State.windowWord (s : State) (x : Reg) (i : Nat) : Word :=
  if i < Config.operandWords then word (s.reg x) i else 0

/-- The write of word `i` of a window: words `NW` to 63 are unimplemented and ignore it (20_memory.md R36 to R38). -/
def State.setWindowWord (s : State) (x : Reg) (i : Nat) (d : Word) : State :=
  if i < Config.operandWords then s.setReg x (setWord (s.reg x) i d) else s

end Sys2Proof.Machine
end

