-- ==== Sys2Proof/Machine/Ops.lean ====
section
/-! DEFINITION. The shared operations: bus reads and writes (20_memory.md R35, R36), acceptance, collision and
completion of a command (60_exceptions.md R75 to R77), and the resets (70_reset_and_hazards.md R94, R96).

This hardware's exception is the erroring completion: it saves nothing, changes no mode and goes to no vector
(60_exceptions.md R82). `complete` is the one operation that takes it. There is no return from it (R83). -/

namespace Sys2Proof.Machine

/-- `ResetState()`: every register, flag and the phase at its reset value (70_reset_and_hazards.md R94, R96). The
reset input, the host and the order of events are not state of the block and stay. -/
def resetRegs (s : State) : State :=
  { s with
    opa := 0, opb := 0, mod := 0, res := 0, ie := false, done := false, coll := false, errcode := 0,
    phase := .idle }

/-- `CtrlWrite(d)` (70_reset_and_hazards.md R96, 10_state.md R21): bit 1 is the soft reset and discards bit 0;
without it bit 0 becomes IE and nothing else changes. -/
def ctrlWrite (d : Word) (s : State) : State :=
  if d.getLsbD 1 then resetRegs s else { s with ie := d.getLsbD 0 }

/-- A STATUS write (10_state.md R22, 20_memory.md R36): bit 1 clears DONE, bit 3 clears COLL, nothing else. -/
def statusWrite (d : Word) (s : State) : State :=
  { s with
    done := if d.getLsbD 1 then false else s.done
    coll := if d.getLsbD 3 then false else s.coll }

/-- `IssueCommand(c)`: acceptance of any command word (60_exceptions.md R75). -/
def issueCommand (c : Word) (s : State) : State :=
  { s with phase := .busy c, done := false, errcode := 0 }

/-- A collision: the write is ignored and only COLL is set (60_exceptions.md R76). -/
def collide (s : State) : State := { s with coll := true }

/-- `BusRead(addr)` (20_memory.md R35): the word returned; a read changes no state, so the state is not answered. -/
def busRead (s : State) (a : Addr) : Word :=
  match target a with
  | .id => Config.blockId
  | .param => paramWord
  | .ctrl => s.ctrlWord
  | .status => s.statusWord
  | .cmd => 0
  | .window x i => s.windowWord x i
  | .reserved => 0

/-- A write to CMD (20_memory.md R36): a command issue while idle, a collision while busy. -/
def cmdWrite (d : Word) (s : State) : State :=
  match s.phase with
  | .idle => issueCommand d s
  | .busy _ => collide s

/-- A write to an operand window (20_memory.md R36 to R38): one word while idle, a collision while busy. -/
def operandWrite (x : Reg) (i : Nat) (d : Word) (s : State) : State :=
  match s.phase with
  | .idle => s.setWindowWord x i d
  | .busy _ => collide s

/-- A write to a window (20_memory.md R36): the RES window ignores it and never collides (R39). -/
def windowWrite (x : Reg) (i : Nat) (d : Word) (s : State) : State :=
  match x with
  | .opa => operandWrite .opa i d s
  | .opb => operandWrite .opb i d s
  | .mod => operandWrite .mod i d s
  | .res => s

/-- `BusWrite(addr, data)` (20_memory.md R36). -/
def busWrite (a : Addr) (d : Word) (s : State) : State :=
  match target a with
  | .id => s
  | .param => s
  | .ctrl => ctrlWrite d s
  | .status => statusWrite d s
  | .cmd => cmdWrite d s
  | .window x i => windowWrite x i d s
  | .reserved => s

/-- `Complete()` with the outcome `out` (60_exceptions.md R77): on OK, RES and code 0; on ERR, the code, RES as it was
(this is how an error is taken: R79, R82); then PHASE idle and DONE. Nothing else changes. -/
def complete (out : Completion) (s : State) : State :=
  match out with
  | .ok r => { s with res := BitVec.ofNat 1024 r, errcode := 0, phase := .idle, done := true }
  | .err code => { s with errcode := code.bits, phase := .idle, done := true }

/-- The first test of every command (60_exceptions.md R78, R80): a modulus of 0 is INVALID_MODULUS. -/
def withModulus (m : Nat) (out : Completion) : Completion :=
  if m = 0 then .err .invalidModulus else out

/-- `rst_n` falls: every piece of the block's state goes to its reset value, whatever the phase
(70_reset_and_hazards.md R94). -/
def assertReset (s : State) : State := { resetRegs s with rstN := false }

/-- `rst_n` returns to 1: the block leaves reset with the values it was held at; nothing changes if it was not in
reset (70_reset_and_hazards.md R94). -/
def releaseReset (s : State) : State :=
  if s.rstN then s else { resetRegs s with rstN := true }

/-- The turn taken next: the oldest of the schedule; with none left, the host when the block is idle and out of
reset, and the engine before it while a command is in execution (70_reset_and_hazards.md R113, R95; log 3, log 7). -/
def State.nextTurn (s : State) : Turn :=
  match s.schedule with
  | t :: _ => t
  | [] => if s.rstN && !s.busy then .host else .engine

/-- The schedule moves on by one turn. -/
def State.dropTurn (s : State) : State := { s with schedule := s.schedule.tail }

end Sys2Proof.Machine
end

