-- ==== Sys2Proof/Machine/Exponentiation.lean ====
section
/-! DEFINITION. The modular exponentiation engine: MODEXP (41_modexp.md). -/

namespace Sys2Proof.Machine

/-- MODEXP's arm of `Outcome` (41_modexp.md R67 to R69, 60_exceptions.md R78). -/
def modexpOutcome (base e m : Nat) : Completion := withModulus m (.ok (modExp base e m))

/-- `MODEXP`: RES <- OPA^OPB mod MOD, with `base^0 = 1 mod m` (41_modexp.md R67, R69). -/
def execModexp (s : State) : Host.Outcome State Fault Refusal :=
  .next (complete (modexpOutcome s.operandA s.operandB s.modulus) s)

end Sys2Proof.Machine
end

