-- ==== Sys2Proof/Machine/Inverse.lean ====
section
/-! DEFINITION. The modular inverse solver: MODINV (42_modinv.md). -/

namespace Sys2Proof.Machine

/-- MODINV's arm of `Outcome` (42_modinv.md R71, R72, R74; 60_exceptions.md R78, R80). -/
def modinvOutcome (v m : Nat) : Completion :=
  withModulus m (if (euclid v m).1 ≠ 1 then .err .noInverse else .ok (bezoutCoeff v m))

/-- `MODINV`: RES <- OPA^-1 mod MOD; OPB is not read (42_modinv.md R71, 30_encoding.md R56). -/
def execModinv (s : State) : Host.Outcome State Fault Refusal :=
  .next (complete (modinvOutcome s.operandA s.modulus) s)

end Sys2Proof.Machine
end

