-- ==== Sys2Proof/Machine/Multiplier.lean ====
section
/-! DEFINITION. The modular multiplier: MODMUL and MONTMUL (40_modmul.md). A meaning is the completion of its command
(60_exceptions.md R77); the engine's turn calls it only while that command is in execution (log 11). -/

namespace Sys2Proof.Machine

/-- MODMUL's arm of `Outcome` (40_modmul.md R62, 60_exceptions.md R78). -/
def modmulOutcome (a b m : Nat) : Completion := withModulus m (.ok (mulmod a b m))

/-- `rinv`: the `y` in `[0, m)` with `(2^W * y) mod m = 1 mod m` (40_modmul.md R64), by the sequence of
42_modinv.md R72. DEDUCED, log 10. -/
def montRinv (w m : Nat) : Nat := bezoutCoeff (2 ^ w) m

/-- MONTMUL's arm of `Outcome` at width `w` (40_modmul.md R64, 60_exceptions.md R78, R80). -/
def montmulOutcome (w a b m : Nat) : Completion :=
  withModulus m (if m % 2 = 0 then .err .evenModulus else .ok (a * b * montRinv w m % m))

/-- `MODMUL`: RES <- (OPA * OPB) mod MOD (40_modmul.md R62). -/
def execModmul (s : State) : Host.Outcome State Fault Refusal :=
  .next (complete (modmulOutcome s.operandA s.operandB s.modulus) s)

/-- `MONTMUL`: RES <- (OPA * OPB * 2^-W) mod MOD (40_modmul.md R64). -/
def execMontmul (s : State) : Host.Outcome State Fault Refusal :=
  .next (complete (montmulOutcome Config.operandWidth s.operandA s.operandB s.modulus) s)

end Sys2Proof.Machine
end

