-- ==== Sys2Proof/Machine/Engine.lean ====
section
/-! DEFINITION. The engine's turn (60_exceptions.md R77, R78; 30_encoding.md R57), and the outcome function of R78 as
one function of the command word and the operands. -/

namespace Sys2Proof.Machine

/-- The completion of an illegal command word: `finish ERR(ILLEGAL_COMMAND)` (30_encoding.md R57). -/
def execIllegal (s : State) : Host.Outcome State Fault Refusal :=
  .next (complete (.err .illegalCommand) s)

/-- The completion of the command word `c`, by what it decodes to (60_exceptions.md R78). -/
def completeWord (c : Word) (s : State) : Host.Outcome State Fault Refusal :=
  match decode c with
  | .command i => exec i s
  | .illegal _ => execIllegal s

/-- The engine's turn: in reset every register is held at its reset value (70_reset_and_hazards.md R94); idle, there
is nothing to complete; busy, the completion step (60_exceptions.md R77). -/
def engineTurn (s : State) : Host.Outcome State Fault Refusal :=
  if s.rstN then
    match s.phase with
    | .idle => .next s
    | .busy c => completeWord c s
  else .next (resetRegs s)

/-- `Outcome` of a legal command (60_exceptions.md R78) at width `w`. -/
def instrOutcome (w : Nat) (i : Instr) (a b m : Nat) : Completion :=
  match i with
  | .modmul => modmulOutcome a b m
  | .montmul => montmulOutcome w a b m
  | .modexp => modexpOutcome a b m
  | .modinv => modinvOutcome a m

/-- `Outcome(c, a, b, m)` (60_exceptions.md R78) at width `w`. -/
def outcome (w : Nat) (c : Word) (a b m : Nat) : Completion :=
  match decode c with
  | .command i => instrOutcome w i a b m
  | .illegal _ => .err .illegalCommand

end Sys2Proof.Machine
end

