-- ==== Sys2Proof/Machine/HostRun.lean ====
section
/-! DEFINITION. The host's turn: one statement of its program (30_encoding.md R60). Only `WR` and `RD` reach the
block. -/

namespace Sys2Proof.Machine

/-- The word variable `v` holds, if an `RD` has assigned it. -/
def lookupVar (v : Nat) : List (Nat × Word) → Option Word
  | [] => none
  | (v', d) :: rest => if v' = v then some d else lookupVar v rest

/-- Assign `d` to variable `v`, keeping the numbers strictly rising. -/
def assignVar (v : Nat) (d : Word) : List (Nat × Word) → List (Nat × Word)
  | [] => [(v, d)]
  | (v', d') :: rest =>
    if v < v' then (v, d) :: (v', d') :: rest
    else if v = v' then (v, d) :: rest
    else (v', d') :: assignVar v d rest

/-- The canonical form of a variable list: numbers strictly rising. -/
abbrev VarsSorted (vars : List (Nat × Word)) : Prop := (vars.map Prod.fst).Pairwise (· < ·)

/-- The number a multi-word read left in `v_0 … v_{k-1}`: `sum of v_i * 2^(32*i)`, an unassigned word counting 0
(30_encoding.md R61, `GET` and `GETLO`). -/
def hostValue (vars : List (Nat × Word)) (v : Nat) : (k : Nat) → Nat
  | 0 => 0
  | k + 1 => hostValue vars v k + ((lookupVar (v + k) vars).getD 0).toNat * 2 ^ (32 * k)

/-- The host moves to its next statement. -/
def State.advanceHost (s : State) : State :=
  { s with host := { s.host with position := s.host.position + 1 } }

/-- The host moves to statement `k`. -/
def State.jumpHost (s : State) (k : Nat) : State :=
  { s with host := { s.host with position := k } }

/-- A host variable takes the word read. -/
def State.assign (s : State) (v : Nat) (d : Word) : State :=
  { s with host := { s.host with vars := assignVar v d s.host.vars } }

/-- The statement the host executes next; none when its run has ended (70_reset_and_hazards.md R111). -/
def State.hostStmt? (s : State) : Option HostStmt := s.host.program[s.host.position]?

/-- A taken branch: the host continues at the label, which its program must declare exactly once (log 5). -/
def hostJump (l : Nat) (s : State) : Host.Outcome State Fault Refusal :=
  match labelPositions l 0 s.host.program with
  | [] => .fault (.hostLabelMissing l)
  | [k] => .next (s.jumpHost k)
  | _ :: _ :: _ => .fault (.hostLabelAmbiguous l)

/-- `BNZ` and `BZ` (30_encoding.md R60): jump when `(v & mask) = 0` is `onZero`, else go on. -/
def hostBranch (onZero : Bool) (v : Nat) (mask : Word) (l : Nat) (s : State) :
    Host.Outcome State Fault Refusal :=
  match lookupVar v s.host.vars with
  | none => .fault (.hostVarUnset v)
  | some d => if ((d &&& mask) == 0) = onZero then hostJump l s else .next s.advanceHost

/-- One host statement, reset released (30_encoding.md R60). A label or a branch does no bus transaction; that it takes
a step of its own in the order of events is the model's. DESIGN CHOICE, log 17. -/
def runStmt (stmt : HostStmt) (s : State) : Host.Outcome State Fault Refusal :=
  match stmt with
  | .wr a d => .next (busWrite a d s).advanceHost
  | .rd a v => .next (s.assign v (busRead s a)).advanceHost
  | .label _ => .next s.advanceHost
  | .bnz v mask l => hostBranch false v mask l s
  | .bz v mask l => hostBranch true v mask l s

/-- The host's turn while `rst_n = 0` (70_reset_and_hazards.md R95): the host has no step, and a bus transaction is
refused by name. -/
def heldStmt (stmt : HostStmt) (s : State) : Host.Outcome State Fault Refusal :=
  match stmt with
  | .wr a _ => .refused (.transactionDuringReset a)
  | .rd a _ => .refused (.transactionDuringReset a)
  | .label _ => .next s
  | .bnz _ _ _ => .next s
  | .bz _ _ _ => .next s

/-- The host's turn. A host whose run has ended does nothing more (70_reset_and_hazards.md R111; log 6). -/
def hostTurn (s : State) : Host.Outcome State Fault Refusal :=
  match s.hostStmt? with
  | none => .next s
  | some stmt => if s.rstN then runStmt stmt s else heldStmt stmt s

end Sys2Proof.Machine
end

