-- ==== Sys2Proof/Machine/Step.lean ====
section
/-! DEFINITION. One step of the system: one event of the global order (00_scope.md R8, 20_memory.md R45). -/

namespace Sys2Proof.Machine

/-- One step: the agent whose turn it is moves, and the turn is used up. -/
def step (s : State) : Host.Outcome State Fault Refusal :=
  match s.nextTurn with
  | .host => hostTurn s.dropTurn
  | .engine => engineTurn s.dropTurn
  | .assertReset => .next (assertReset s.dropTurn)
  | .releaseReset => .next (releaseReset s.dropTurn)

/-- The state in which the command word with the given bits has been accepted and the engine's turn comes next, so
that the very next step completes exactly it. It stands for a host's CMD write (60_exceptions.md R75; log 12): PHASE
is BUSY of the word, reset is released, and a schedule that names other turns gets the engine's before them. -/
def State.withFetchWord (s : State) (nbits w : Nat) : State :=
  { s with
    phase := .busy (tableWord nbits w)
    rstN := true
    schedule := if s.schedule.isEmpty then [] else .engine :: s.schedule }

end Sys2Proof.Machine
end

