-- ==== Sys2Proof/Safety.lean ====
section
/-! DEFINITION. The terms claims are stated in: the events a step can be, the invariants of 10_state.md R27, runs, what
a well-behaved host waits for (70_reset_and_hazards.md R111), and the two ends of a command written out field by
field from 60_exceptions.md R77, so that a statement does not lean on the model's own `complete`. -/

namespace Sys2Proof.Machine

/-! ### Events -/

/-- The next step completes the command word `c` (60_exceptions.md R77). -/
def State.Completes (s : State) (c : Word) : Prop :=
  s.nextTurn = .engine ∧ s.rstN = true ∧ s.phase = .busy c

/-- The next step is the host statement `stmt`. -/
def State.Runs (s : State) (stmt : HostStmt) : Prop :=
  s.nextTurn = .host ∧ s.hostStmt? = some stmt

/-- The next step is the bus write `BusWrite(a, d)` (20_memory.md R36). -/
def State.Writes (s : State) (a : Addr) (d : Word) : Prop :=
  s.Runs (.wr a d) ∧ s.rstN = true

/-- The next step is a soft reset (70_reset_and_hazards.md R96). -/
def State.SoftResets (s : State) : Prop :=
  ∃ a d, s.Writes a d ∧ offset a = 0x008 ∧ d.getLsbD 1 = true

/-- The next step holds the block at its reset values (70_reset_and_hazards.md R94): `rst_n` falls, or it is 0 and
the engine's turn comes or `rst_n` rises. -/
def State.HardResets (s : State) : Prop :=
  s.nextTurn = .assertReset ∨ (s.rstN = false ∧ (s.nextTurn = .engine ∨ s.nextTurn = .releaseReset))

/-- The next step is a reset of either kind. -/
def State.Resets (s : State) : Prop := s.SoftResets ∨ s.HardResets

/-- The next step is a bus write the block ignores because it is busy (60_exceptions.md R76): to CMD or to the OPA,
OPB or MOD window. -/
def State.Collides (s : State) : Prop :=
  ∃ a d, s.Writes a d ∧ s.busy = true ∧ (offset a = 0x010 ∨ (0x100 ≤ offset a ∧ offset a < 0x400))

/-- Two states agree in every register, flag and the phase of the block (10_state.md R13). -/
def SameBlock (s t : State) : Prop :=
  t.opa = s.opa ∧ t.opb = s.opb ∧ t.mod = s.mod ∧ t.res = s.res ∧ t.ie = s.ie ∧ t.done = s.done ∧
    t.coll = s.coll ∧ t.errcode = s.errcode ∧ t.phase = s.phase

/-- Two states agree in all that is no register of the block: the reset input, the host, the schedule. -/
def SameRest (s t : State) : Prop :=
  t.rstN = s.rstN ∧ t.host = s.host ∧ t.schedule = s.schedule

/-- Every register, flag and the phase of the block are at their reset values (10_state.md R13). -/
def AtResetValues (s : State) : Prop :=
  s.opa = 0 ∧ s.opb = 0 ∧ s.mod = 0 ∧ s.res = 0 ∧ s.ie = false ∧ s.done = false ∧ s.coll = false ∧
    s.errcode = 0 ∧ s.phase = .idle

/-! ### The two ends of a command, and acceptance -/

/-- `finish OK(r)` (60_exceptions.md R77): RES <- r, ERRCODE <- 0, PHASE <- IDLE, DONE <- 1, nothing else. -/
def finishOk (r : Nat) (s : State) : State :=
  { s with res := BitVec.ofNat 1024 r, errcode := 0, phase := .idle, done := true }

/-- `finish ERR(k)` (60_exceptions.md R77): ERRCODE <- k, PHASE <- IDLE, DONE <- 1, nothing else. -/
def finishErr (k : BitVec 4) (s : State) : State :=
  { s with errcode := k, phase := .idle, done := true }

/-- What acceptance of `c` leaves (60_exceptions.md R75): PHASE <- BUSY(c), DONE <- 0, ERRCODE <- 0, nothing else. -/
def accepted (c : Word) (s : State) : State :=
  { s with phase := .busy c, done := false, errcode := 0 }

/-! ### Invariants -/

/-- The STATUS invariants (10_state.md R27): (a) BUSY = 1 implies DONE = 0 and ERRCODE = 0; (b) ERRCODE is at most 4;
(c) the ERR bit as read is 1 exactly when ERRCODE is not 0. -/
def StatusInv (s : State) : Prop :=
  (s.statusWord.getLsbD 0 = true → s.statusWord.getLsbD 1 = false ∧ s.errcode = 0) ∧
    s.errcode.toNat ≤ 4 ∧
    (s.statusWord.getLsbD 2 = true ↔ s.errcode ≠ 0)

/-- While `rst_n = 0` the block is at its reset values (70_reset_and_hazards.md R94). -/
def ResetHeld (s : State) : Prop := s.rstN = false → AtResetValues s

/-- The invariant every step keeps: R27, R94, and the canonical form of the host's variables. -/
def MachineInv (s : State) : Prop := StatusInv s ∧ ResetHeld s ∧ VarsSorted s.host.vars

/-! ### Runs -/

/-- `k` steps, stopping at the first fault or refusal. -/
def runFor : Nat → State → Host.Outcome State Fault Refusal
  | 0, s => .next s
  | k + 1, s =>
    match step s with
    | .next t => runFor k t
    | .fault f => .fault f
    | .refused r => .refused r

/-- No turn of the schedule moves the reset input. -/
def NoResetTurns (s : State) : Prop := ∀ t ∈ s.schedule, t = .host ∨ t = .engine

/-- Only the host has turns in the schedule. -/
def OnlyHostTurns (s : State) : Prop := ∀ t ∈ s.schedule, t = .host

/-- The program from the host's position on begins with `stmts`. -/
def ProgramAhead (s : State) (stmts : List HostStmt) : Prop :=
  stmts <+: s.host.program.drop s.host.position

/-- The host's run has ended: its last statement has been executed (70_reset_and_hazards.md R111). -/
def RunEnded (s : State) : Prop := s.hostStmt? = none

/-- A result may be read (70_reset_and_hazards.md R102, R107, R111): completed, without error, with no lost write. -/
def ResultReadable (s : State) : Prop :=
  s.phase = .idle ∧ s.done = true ∧ s.errcode = 0 ∧ s.coll = false

/-- The host statement can run: a branch's variable is assigned, and its label is declared exactly once if it jumps. -/
def HostReady (s : State) : Prop :=
  match s.hostStmt? with
  | some (.bnz v mask l) =>
    ∃ d, lookupVar v s.host.vars = some d ∧ (d &&& mask ≠ 0 → ∃ k, labelPositions l 0 s.host.program = [k])
  | some (.bz v mask l) =>
    ∃ d, lookupVar v s.host.vars = some d ∧ (d &&& mask = 0 → ∃ k, labelPositions l 0 s.host.program = [k])
  | _ => True

end Sys2Proof.Machine
end

