-- ==== Sys2Proof/WellFormed.lean ====
section
/-! DEFINITION. What is checked before a term has a meaning: a command word against its format, a host program's
labels, a pseudo-instruction's operands. An `Instr` carries no operand, so every one is well formed
(30_encoding.md R54). -/

namespace Sys2Proof

/-- Every command is well formed: it has no operand that could be out of range (30_encoding.md R54, R56). -/
def Instr.wellFormed : Instr → Bool
  | .modmul => true
  | .montmul => true
  | .modexp => true
  | .modinv => true

/-- A command word has the format of a legal command: RSV = 0 and OP in 1 to 4 (30_encoding.md R53, R55, R57). -/
def commandWordWellFormed (c : Word) : Bool :=
  rsvField c == 0 && decide (1 ≤ (opField c).toNat) && decide ((opField c).toNat ≤ 4)

namespace Machine

/-- A statement's jump goes to a label the program declares exactly once. -/
def HostStmt.wellFormed (program : List HostStmt) (stmt : HostStmt) : Bool :=
  match stmt.jumpsTo? with
  | none => true
  | some l => (labelPositions l 0 program).length == 1

/-- Every jump of a host program goes to a label declared exactly once (30_encoding.md R60). -/
def programWellFormed (program : List HostStmt) : Bool :=
  program.all (HostStmt.wellFormed program)

/-- A pseudo-instruction's operands fit: a loaded number has at most `W` bits, and at most `NW` words are read
(30_encoding.md R61). Loading RES is well formed: its writes are ignored (20_memory.md R39). -/
def Pseudo.wellFormed : Pseudo → Bool
  | .command i => i.wellFormed
  | .ld _ n => decide (n < 2 ^ Config.operandWidth)
  | .ldlo _ n => decide (n < 2 ^ Config.operandWidth)
  | .waitDone _ _ => true
  | .get _ => true
  | .getlo k _ => decide (k ≤ Config.operandWords)
  | .clrDone => true
  | .srst => true

end Machine

end Sys2Proof
end

