-- ==== Sys2Proof/Certificates/Slice0/Obligations.lean ====
section
/-! DEFINITION. The statements for the provers. Each docstring names the rule of spec/ it formalises. `1024` is the
operand width W, `32` the number of words NW (00_scope.md R5, R6). Every statement holds for every state, in or out of
reach, unless a premise says otherwise, and for every schedule: no order of events is assumed (log 2). -/

open Sys2Proof Sys2Proof.Machine

/-! ### Encoding -/

/-- R55, R58: the decoder is total, matches the whole 32-bit word, and the legal words are exactly 1 to 4. -/
def Obligations.DecodeMatchesWholeWord : Prop :=
  (∀ c : Word, (decode c).instr? =
    if c = 0x00000001 then some .modmul
    else if c = 0x00000002 then some .montmul
    else if c = 0x00000003 then some .modexp
    else if c = 0x00000004 then some .modinv
    else none) ∧
  encode .modmul = 0x00000001 ∧ encode .montmul = 0x00000002 ∧
  encode .modexp = 0x00000003 ∧ encode .modinv = 0x00000004

/-- Decode and encode agree in both directions, on every word and every command; a word has a command's format exactly
when it decodes to one, and the table's numbering of a row's bits gives the same answer (30_encoding.md sections 1
and 2). -/
def Obligations.DecodeEncodeAgree : Prop :=
  (∀ (c : Word) (i : Instr), decode c = .command i ↔ c = encode i) ∧
  (∀ c : Word, commandWordWellFormed c = true ↔ ∃ i : Instr, i.wellFormed = true ∧ c = encode i) ∧
  (∀ (w : Nat) (i : Instr), w < 2 ^ 32 → (decodeTableWord 32 w = some i ↔ w = (encode i).toNat))

/-- 30_encoding.md section 3 (R57): the three classes of illegal words, by OP = c mod 16 and RSV = c div 16. -/
def Obligations.IllegalWordsByClass : Prop :=
  ∀ c : Word,
    (decode c = .illegal .opZero ↔ c.toNat % 16 = 0) ∧
    (decode c = .illegal .opReserved ↔ 5 ≤ c.toNat % 16) ∧
    (decode c = .illegal .rsvNotZero ↔ (1 ≤ c.toNat % 16 ∧ c.toNat % 16 ≤ 4 ∧ c.toNat / 16 ≠ 0))

/-- The words of the opcode table, and the illegal words K1 to K7 of 95_test_vectors.md section 2.5. -/
def Obligations.TableWordsDecode : Prop :=
  decode 0x00000001 = .command .modmul ∧ decode 0x00000002 = .command .montmul ∧
  decode 0x00000003 = .command .modexp ∧ decode 0x00000004 = .command .modinv ∧
  decode 0x00000000 = .illegal .opZero ∧ decode 0x00000005 = .illegal .opReserved ∧
  decode 0x0000000F = .illegal .opReserved ∧ decode 0x00000011 = .illegal .rsvNotZero ∧
  decode 0x80000003 = .illegal .rsvNotZero ∧ decode 0xFFFFFFFF = .illegal .opReserved ∧
  decode 0x00000104 = .illegal .rsvNotZero

/-! ### One step -/

/-- 60_exceptions.md section 1 (R77, R78): when the engine's turn comes with a legal word in execution, the step is
that command's meaning, the turn used up; an illegal word gets its own completion. -/
def Obligations.StepRunsDecodedCommand : Prop :=
  ∀ (s : State) (c : Word), s.Completes c →
    (∀ i : Instr, decode c = .command i → step s = exec i { s with schedule := s.schedule.tail }) ∧
    (∀ why : IllegalReason, decode c = .illegal why →
      step s = .next (finishErr 4 { s with schedule := s.schedule.tail }))

/-- The word `withFetchWord` stores is the word the very next step completes (the model's choice, log 12). -/
def Obligations.FetchedWordRunsNext : Prop :=
  ∀ (s : State) (w : Nat) (i : Instr), decodeTableWord 32 w = some i →
    (s.withFetchWord 32 w).Completes (BitVec.ofNat 32 w) ∧
    step (s.withFetchWord 32 w) =
      exec i { s with phase := .busy (BitVec.ofNat 32 w), rstN := true }

/-- R60's five host statements, at the host's turn: what each does, and what it leaves. `WR` and `RD` reach the block;
`RD` changes nothing in it (20_memory.md R43); labels and branches move only the host. A host whose run has ended does
nothing (70_reset_and_hazards.md R111; log 6). The host's own fields are the model's (logs 4, 16), and so
is that a label or a branch takes a step of its own (log 17). -/
def Obligations.HostStatementsRun : Prop :=
  ∀ s : State, s.nextTurn = .host →
    (∀ a d, s.hostStmt? = some (.wr a d) → s.rstN = true →
      step s = .next (busWrite a d s.dropTurn).advanceHost) ∧
    (∀ a v, s.hostStmt? = some (.rd a v) → s.rstN = true →
      ∃ t, step s = .next t ∧ SameBlock s t ∧ t.rstN = s.rstN ∧ t.schedule = s.schedule.tail ∧
        t.host.program = s.host.program ∧ t.host.position = s.host.position + 1 ∧
        lookupVar v t.host.vars = some (busRead s a) ∧
        ∀ v', v' ≠ v → lookupVar v' t.host.vars = lookupVar v' s.host.vars) ∧
    (∀ l, s.hostStmt? = some (.label l) → s.rstN = true → step s = .next s.dropTurn.advanceHost) ∧
    (∀ v mask l d k, s.hostStmt? = some (.bnz v mask l) → s.rstN = true → lookupVar v s.host.vars = some d →
      labelPositions l 0 s.host.program = [k] →
      step s = .next (if d &&& mask ≠ 0 then s.dropTurn.jumpHost k else s.dropTurn.advanceHost)) ∧
    (∀ v mask l d k, s.hostStmt? = some (.bz v mask l) → s.rstN = true → lookupVar v s.host.vars = some d →
      labelPositions l 0 s.host.program = [k] →
      step s = .next (if d &&& mask = 0 then s.dropTurn.jumpHost k else s.dropTurn.advanceHost)) ∧
    (s.hostStmt? = none → step s = .next s.dropTurn)

/-- R110: in no state can a step leave the spec's meaning but for a transaction during reset (R95) and a host
branch that its own program does not define (log 5); with reset released and such a branch absent, every step is
defined. -/
def Obligations.StepStopsOnlyAsListed : Prop :=
  (∀ s : State, s.rstN = true → HostReady s → ∃ t, step s = .next t) ∧
  (∀ s r, step s = .refused r →
    s.rstN = false ∧ ∃ a, r = .transactionDuringReset a ∧
      ((∃ d, s.Runs (.wr a d)) ∨ ∃ v, s.Runs (.rd a v))) ∧
  (∀ s f, step s = .fault f →
    s.rstN = true ∧ ∃ v mask l, (s.Runs (.bnz v mask l) ∨ s.Runs (.bz v mask l)) ∧
      ((f = .hostVarUnset v ∧ lookupVar v s.host.vars = none) ∨
        (f = .hostLabelMissing l ∧ labelPositions l 0 s.host.program = []) ∨
        (f = .hostLabelAmbiguous l ∧ 2 ≤ (labelPositions l 0 s.host.program).length)))

/-! ### The four commands -/

/-- R62: MODMUL's word, its error and its result, with the whole state it leaves. -/
def Obligations.ModmulResult : Prop :=
  encode .modmul = 0x00000001 ∧
  ∀ s : State,
    (s.mod.toNat = 0 → exec .modmul s = .next (finishErr 1 s)) ∧
    (s.mod.toNat ≠ 0 →
      exec .modmul s = .next (finishOk (s.opa.toNat * s.opb.toNat % s.mod.toNat) s) ∧
      s.opa.toNat * s.opb.toNat % s.mod.toNat < s.mod.toNat)

/-- R64: MONTMUL's word, its two errors and its result; `rinv` is the one `y` in `[0, m)` with
`(2^W * y) mod m = 1 mod m`, and it exists for every odd `m`. -/
def Obligations.MontmulResult : Prop :=
  encode .montmul = 0x00000002 ∧
  ∀ s : State,
    (s.mod.toNat = 0 → exec .montmul s = .next (finishErr 1 s)) ∧
    (s.mod.toNat ≠ 0 → s.mod.toNat % 2 = 0 → exec .montmul s = .next (finishErr 3 s)) ∧
    (s.mod.toNat % 2 = 1 →
      ∃ rinv, rinv < s.mod.toNat ∧ 2 ^ 1024 * rinv % s.mod.toNat = 1 % s.mod.toNat ∧
        (∀ y, y < s.mod.toNat → 2 ^ 1024 * y % s.mod.toNat = 1 % s.mod.toNat → y = rinv) ∧
        exec .montmul s = .next (finishOk (s.opa.toNat * s.opb.toNat * rinv % s.mod.toNat) s) ∧
        s.opa.toNat * s.opb.toNat * rinv % s.mod.toNat < s.mod.toNat)

/-- R67: MODEXP's word, its one error and its result. -/
def Obligations.ModexpResult : Prop :=
  encode .modexp = 0x00000003 ∧
  ∀ s : State,
    (s.mod.toNat = 0 → exec .modexp s = .next (finishErr 1 s)) ∧
    (s.mod.toNat ≠ 0 → exec .modexp s = .next (finishOk (s.opa.toNat ^ s.opb.toNat % s.mod.toNat) s))

/-- R71: MODINV's word, its two errors and its result, the one `x` in `[0, m)` with `(v * x) mod m = 1 mod m`; OPB is
not read: no clause speaks of it, and the state with any other OPB gives the same result and code. -/
def Obligations.ModinvResult : Prop :=
  encode .modinv = 0x00000004 ∧
  ∀ s : State,
    (s.mod.toNat = 0 → exec .modinv s = .next (finishErr 1 s)) ∧
    (s.mod.toNat ≠ 0 → Nat.gcd s.opa.toNat s.mod.toNat ≠ 1 → exec .modinv s = .next (finishErr 2 s)) ∧
    (s.mod.toNat ≠ 0 → Nat.gcd s.opa.toNat s.mod.toNat = 1 →
      ∃ x, x < s.mod.toNat ∧ s.opa.toNat * x % s.mod.toNat = 1 % s.mod.toNat ∧
        (∀ y, y < s.mod.toNat → s.opa.toNat * y % s.mod.toNat = 1 % s.mod.toNat → y = x) ∧
        ∀ b : Operand, exec .modinv { s with opb := b } = .next (finishOk x { s with opb := b }))

/-- 30_encoding.md section 3 (R57): an illegal word is accepted like any other while idle, and its completion reports
ILLEGAL_COMMAND and leaves RES and every other register unchanged. -/
def Obligations.IllegalWordsCompleteWithCode4 : Prop :=
  ∀ (s : State) (c : Word), (∀ i : Instr, c ≠ encode i) →
    (s.phase = .idle → busWrite 0x010 c s = accepted c s) ∧
    (s.Completes c → step s = .next (finishErr 4 { s with schedule := s.schedule.tail }))

/-- 60_exceptions.md section 1 (R77, R78): the completion step takes `Outcome(c, OPA, OPB, MOD)` and nothing else, for
every command word, legal or not. -/
def Obligations.CompletionTakesOutcome : Prop :=
  ∀ (s : State) (c : Word), s.Completes c →
    step s = .next
      (match outcome 1024 c s.opa.toNat s.opb.toNat s.mod.toNat with
        | .ok r => finishOk r { s with schedule := s.schedule.tail }
        | .err k => finishErr k.bits { s with schedule := s.schedule.tail })

/-- R80: a completion reports exactly one code, by the order ILLEGAL_COMMAND, INVALID_MODULUS, EVEN_MODULUS (MONTMUL
only), NO_INVERSE (MODINV only). -/
def Obligations.ErrorCodePrecedence : Prop :=
  ∀ (s : State) (c : Word), s.Completes c →
    ∃ t, step s = .next t ∧
      t.errcode =
        if c ≠ 1 ∧ c ≠ 2 ∧ c ≠ 3 ∧ c ≠ 4 then 4
        else if s.mod = 0 then 1
        else if c = 2 ∧ s.mod.toNat % 2 = 0 then 3
        else if c = 4 ∧ Nat.gcd s.opa.toNat s.mod.toNat ≠ 1 then 2
        else 0

/-- 60_exceptions.md sections 1 and 3 (R77, R82): the frame of the four commands. Each completes from every state; it
writes only RES (on OK), ERRCODE, PHASE and DONE; every word of the register region outside STATUS and the RES window
reads as before; an error leaves RES, and so the RES window, unchanged too. -/
def Obligations.CommandFrame : Prop :=
  ∀ (i : Instr) (s : State), ∃ t, exec i s = .next t ∧
    t.opa = s.opa ∧ t.opb = s.opb ∧ t.mod = s.mod ∧ t.ie = s.ie ∧ t.coll = s.coll ∧ SameRest s t ∧
    t.phase = .idle ∧ t.done = true ∧
    (∀ a : Addr, offset a ≠ 0x00C → ¬(0x400 ≤ offset a ∧ offset a < 0x500) → busRead t a = busRead s a) ∧
    (t.errcode ≠ 0 → t.res = s.res ∧ ∀ a : Addr, offset a ≠ 0x00C → busRead t a = busRead s a)

/-- 60_exceptions.md section 1 (R77): the outcome depends on the command and the operand registers alone, not on RES,
COLL, IE, the phase, the host or the schedule; MODINV's does not depend on OPB either (R56). -/
def Obligations.OutcomeReadsOnlyOperands : Prop :=
  ∀ (i : Instr) (s t s' t' : State), exec i s = .next s' → exec i t = .next t' →
    s.opa = t.opa → (i ≠ .modinv → s.opb = t.opb) → s.mod = t.mod →
    s'.errcode = t'.errcode ∧ (s'.errcode = 0 → s'.res = t'.res)

/-- R66, and the same for MODEXP and MODINV (R70(1), R73): an OK result is below the modulus, so it fits in RES, and
the words of RES above `bitlen(m)` are 0. -/
def Obligations.ResultsBelowModulus : Prop :=
  ∀ (i : Instr) (s t : State), exec i s = .next t → t.errcode = 0 →
    t.res.toNat < s.mod.toNat ∧ s.mod.toNat ≤ 2 ^ 1024 - 1 ∧
    ∀ j, s.mod.toNat < 2 ^ (32 * j) → word t.res j = 0

/-! ### The arithmetic -/

/-- R68: for `m >= 1` the reference sequence gives `base^e mod m`, started at bit `bitlen(e) - 1` or at any higher bit
(leading zeros included). -/
def Obligations.SquareAndMultiplyIsPower : Prop :=
  ∀ base e m : Nat, 1 ≤ m →
    modExp base e m = base ^ e % m ∧
    ∀ k, bitlen e ≤ k → modExpFrom k base e m = base ^ e % m

/-- 42_modinv.md R72 (the sequence) with its bound (log 9): the loop ends within the model's bound; its remainder is
`gcd(v, m)`, `v * s0 = gcd(v, m) (mod m)`, and a larger bound changes nothing. -/
def Obligations.EuclidSequenceEnds : Prop :=
  ∀ v m : Nat, 1 ≤ m →
    (euclid v m).1 = Nat.gcd v m ∧
    ((v : Int) * (euclid v m).2 - (Nat.gcd v m : Int)) % (m : Int) = 0 ∧
    ∀ k, 2 * bitlen m ≤ k → euclidLoop k v m 1 0 = euclid v m

/-- R69: the corner cases of MODEXP, on the state MODEXP leaves. -/
def Obligations.ModexpCorners : Prop :=
  ∀ s t : State, exec .modexp s = .next t → s.mod ≠ 0 →
    t.errcode = 0 ∧
    (s.opb = 0 → t.res.toNat = 1 % s.mod.toNat ∧ (2 ≤ s.mod.toNat → t.res.toNat = 1)) ∧
    (s.mod = 1 → t.res = 0) ∧
    (s.opa = 0 → s.opb ≠ 0 → t.res = 0) ∧
    t.res.toNat = (s.opa.toNat % s.mod.toNat) ^ s.opb.toNat % s.mod.toNat ∧
    (s.opb = BitVec.allOnes 1024 → t.res.toNat = s.opa.toNat ^ (2 ^ 1024 - 1) % s.mod.toNat) ∧
    (∀ (r : Operand) (u : State), exec .modexp { s with res := r } = .next u → u.res = t.res)

/-- R70: the laws of MODEXP, on its outcome function. -/
def Obligations.ModexpLaws : Prop :=
  ∀ m : Nat, 1 ≤ m →
    (∀ base e, ∃ r, modexpOutcome base e m = .ok r ∧ r < m) ∧
    (∀ base e, modexpOutcome base e m = modexpOutcome (base % m) e m) ∧
    (∀ b e1 e2 r1 r2, modexpOutcome b e1 m = .ok r1 → modexpOutcome b e2 m = .ok r2 →
      modexpOutcome b (e1 + e2) m = modmulOutcome r1 r2 m) ∧
    (∀ b, modexpOutcome b 1 m = .ok (b % m))

/-- R65: the Montgomery-domain laws, for every operand width `w` and odd `m`; `rinv` is `RM^-1 mod m`. -/
def Obligations.MontgomeryDomainLaws : Prop :=
  ∀ w m : Nat, m % 2 = 1 →
    (∀ a, montmulOutcome w a ((2 ^ w) ^ 2 % m) m = .ok (a * 2 ^ w % m)) ∧
    (∀ x rinv, 2 ^ w * rinv % m = 1 % m → montmulOutcome w x 1 m = .ok (x * rinv % m)) ∧
    (∀ a b, montmulOutcome w (a * 2 ^ w % m) (b * 2 ^ w % m) m = .ok (a * b * 2 ^ w % m)) ∧
    (∀ a b c, montmulOutcome w (a * 2 ^ w % m) (b * 2 ^ w % m) m = .ok c →
      montmulOutcome w c 1 m = modmulOutcome a b m) ∧
    modexpOutcome 2 (2 * w) m = .ok ((2 ^ w) ^ 2 % m)

/-- R73: for `m >= 1` and `gcd(v, m) = 1` exactly one `x` in `[0, m)` satisfies `v * x ≡ 1 (mod m)`; MODINV answers it;
and MODMUL of `v` and it gives 1 for every `m >= 2`. -/
def Obligations.InverseIsUnique : Prop :=
  ∀ v m : Nat, 1 ≤ m → Nat.gcd v m = 1 →
    ∃ x, x < m ∧ v * x ≡ 1 [MOD m] ∧ (∀ y, y < m → v * y ≡ 1 [MOD m] → y = x) ∧
      modinvOutcome v m = .ok x ∧ (2 ≤ m → modmulOutcome v x m = .ok 1)

/-- R74: at modulus 1 MODINV raises no error and answers 0, the only element of `[0, 1)`, for every value. -/
def Obligations.ModulusOneInverse : Prop :=
  ∀ s : State, s.mod = 1 →
    exec .modinv s = .next (finishOk 0 s) ∧ s.opa.toNat * 0 ≡ 1 [MOD s.mod.toNat]

/-! ### The register interface -/

/-- R35: `BusRead(addr)` at every address of the region, in every state and phase. -/
def Obligations.BusReadRule : Prop :=
  ∀ (s : State) (a : Addr),
    let off := 4 * (a.toNat / 4)
    (busRead s a).toNat =
      if off = 0x000 then 0x4D4D0001
      else if off = 0x004 then 1024
      else if off = 0x008 then (if s.ie then 1 else 0)
      else if off = 0x00C then
        s.errcode.toNat * 2 ^ 8 + (if s.coll then 2 ^ 3 else 0) + (if s.errcode ≠ 0 then 2 ^ 2 else 0) +
          (if s.done then 2 ^ 1 else 0) + (if s.phase ≠ .idle then 1 else 0)
      else if off = 0x010 then 0
      else if 0x100 ≤ off ∧ off < 0x500 then
        let n := (off - 0x100) / 0x100
        let x := if n = 0 then s.opa else if n = 1 then s.opb else if n = 2 then s.mod else s.res
        let i := (off - 0x100) % 0x100 / 4
        if i < 32 then x.toNat / 2 ^ (32 * i) % 2 ^ 32 else 0
      else 0

/-- R36: `BusWrite(addr, data)` at every address of the region, in every state and phase. -/
def Obligations.BusWriteRule : Prop :=
  ∀ (s : State) (a : Addr) (d : Word),
    let off := 4 * (a.toNat / 4)
    let i := (off - 0x100) % 0x100 / 4
    busWrite a d s =
      if off = 0x008 then (if d.getLsbD 1 then resetRegs s else { s with ie := d.getLsbD 0 })
      else if off = 0x00C then
        { s with
          done := if d.getLsbD 1 then false else s.done
          coll := if d.getLsbD 3 then false else s.coll }
      else if off = 0x010 ∨ (0x100 ≤ off ∧ off < 0x400) then
        (if s.phase ≠ .idle then { s with coll := true }
        else if off = 0x010 then { s with phase := .busy d, done := false, errcode := 0 }
        else if i < 32 then
          (if off < 0x200 then { s with opa := setWord s.opa i d }
          else if off < 0x300 then { s with opb := setWord s.opb i d }
          else { s with mod := setWord s.mod i d })
        else s)
      else s

/-- R34: the word at `B_X + 4*i` is `X[32*i+31 : 32*i]`, bit `j` of it is bit `32*i + j` of `X`, and `X` is the sum of
its words in little-endian word order. -/
def Obligations.WindowWordOrder : Prop :=
  ∀ (s : State) (x : Reg),
    (∀ i, i < 32 →
      (windowAddr x i).toNat = (match x with | .opa => 0x100 | .opb => 0x200 | .mod => 0x300 | .res => 0x400) + 4 * i ∧
      (busRead s (windowAddr x i)).toNat = (s.reg x).toNat / 2 ^ (32 * i) % 2 ^ 32 ∧
      ∀ j, j < 32 → (busRead s (windowAddr x i)).getLsbD j = (s.reg x).getLsbD (32 * i + j)) ∧
    (s.reg x).toNat = ((List.range 32).map fun i => (busRead s (windowAddr x i)).toNat * 2 ^ (32 * i)).sum

/-- R37: while idle a write to word `i < NW` of an operand window replaces that word and no other, and nothing else in
the machine; while busy it is ignored and sets COLL; a read returns the word in either phase. -/
def Obligations.OperandWriteReplacesOneWord : Prop :=
  ∀ (s : State) (x : Reg) (i : Nat) (d : Word), x ≠ .res → i < 32 →
    (s.phase = .idle →
      word ((busWrite (windowAddr x i) d s).reg x) i = d ∧
      (∀ j, j < 32 → j ≠ i → word ((busWrite (windowAddr x i) d s).reg x) j = word (s.reg x) j) ∧
      busWrite (windowAddr x i) d s = s.setReg x ((busWrite (windowAddr x i) d s).reg x) ∧
      busRead (busWrite (windowAddr x i) d s) (windowAddr x i) = d) ∧
    (∀ c, s.phase = .busy c → busWrite (windowAddr x i) d s = { s with coll := true }) ∧
    busRead s (windowAddr x i) = word (s.reg x) i

/-- R76: while busy a write to CMD or to any offset in 0x100 to 0x3FF changes COLL alone; CTRL, STATUS, ID, PARAM,
the RES window and the reserved offsets behave as while idle and never collide. -/
def Obligations.CollisionChangesOnlyColl : Prop :=
  ∀ (s : State) (c d : Word) (a : Addr), s.phase = .busy c →
    ((offset a = 0x010 ∨ (0x100 ≤ offset a ∧ offset a < 0x400)) → busWrite a d s = { s with coll := true }) ∧
    (offset a = 0x008 → busWrite a d s = if d.getLsbD 1 then resetRegs s else { s with ie := d.getLsbD 0 }) ∧
    (offset a = 0x00C →
      busWrite a d s = { s with done := s.done && !d.getLsbD 1, coll := s.coll && !d.getLsbD 3 }) ∧
    (offset a = 0x000 ∨ offset a = 0x004 ∨ (0x014 ≤ offset a ∧ offset a < 0x100) ∨ 0x400 ≤ offset a →
      busWrite a d s = s)

/-- R75: a CMD write while idle accepts any word: PHASE, DONE and ERRCODE change, nothing else, and `irq` is low. -/
def Obligations.AcceptanceRule : Prop :=
  ∀ (s : State) (c : Word), s.phase = .idle →
    busWrite 0x010 c s = { s with phase := .busy c, done := false, errcode := 0 } ∧
    (busWrite 0x010 c s).statusWord.getLsbD 0 = true ∧
    (busWrite 0x010 c s).irq = false

/-- R21: CTRL as read and as written, in both phases. -/
def Obligations.CtrlRegister : Prop :=
  ∀ (s : State) (d : Word),
    (busRead s 0x008).toNat = (if s.ie then 1 else 0) ∧
    (d.getLsbD 1 = false → busWrite 0x008 d s = { s with ie := d.getLsbD 0 }) ∧
    (d.getLsbD 1 = true → AtResetValues (busWrite 0x008 d s) ∧ SameRest s (busWrite 0x008 d s)) ∧
    ((busWrite 0x008 d s).coll = true → s.coll = true)

/-- R96: a soft reset has exactly the effect of a hardware reset on every piece of the block's state, in both phases,
within the write itself; a command in execution is abandoned, and an engine's turn then completes nothing. -/
def Obligations.SoftResetEqualsHardReset : Prop :=
  ∀ (s : State) (d : Word), d.getLsbD 1 = true →
    AtResetValues (busWrite 0x008 d s) ∧ SameRest s (busWrite 0x008 d s) ∧
    SameBlock (busWrite 0x008 d s) (releaseReset (assertReset s)) ∧
    (∀ t, s.Writes 0x008 d → step s = .next t → t.rstN = true → t.nextTurn = .engine →
      step t = .next { t with schedule := t.schedule.tail })

/-- R22: STATUS as read, bit by bit, and as written: bit 1 clears DONE, bit 3 clears COLL, nothing else. -/
def Obligations.StatusRegister : Prop :=
  ∀ (s : State) (d : Word),
    (busRead s 0x00C).toNat =
      (if s.busy then 1 else 0) + (if s.done then 2 else 0) + (if s.errcode ≠ 0 then 4 else 0) +
        (if s.coll then 8 else 0) + 256 * s.errcode.toNat ∧
    (s.busy = true ↔ ∃ c, s.phase = .busy c) ∧
    busWrite 0x00C d s =
      { s with
        done := if d.getLsbD 1 then false else s.done
        coll := if d.getLsbD 3 then false else s.coll }

/-- R19, R20: ID and PARAM read their constants in every state, and writes to them change nothing. -/
def Obligations.IdAndParamAreConstant : Prop :=
  ∀ (s : State) (d : Word),
    busRead s 0x000 = 0x4D4D0001 ∧ busRead s 0x004 = 0x00000400 ∧
    busWrite 0x000 d s = s ∧ busWrite 0x004 d s = s

/-- R28: CMD reads 0 in every state; a write while idle issues the word, a write while busy collides; nothing but the
word in PHASE is held. -/
def Obligations.CmdRegister : Prop :=
  ∀ (s : State) (d : Word),
    busRead s 0x010 = 0 ∧
    (s.phase = .idle → busWrite 0x010 d s = { s with phase := .busy d, done := false, errcode := 0 }) ∧
    (∀ c, s.phase = .busy c → busWrite 0x010 d s = { s with coll := true })

/-- R40: a read of a reserved offset returns 0 and a write to it changes nothing, in every state. -/
def Obligations.ReservedOffsetsAreInert : Prop :=
  ∀ (s : State) (a : Addr) (d : Word),
    ((0x014 ≤ a.toNat ∧ a.toNat ≤ 0x0FF) ∨ (0x500 ≤ a.toNat ∧ a.toNat ≤ 0xFFF)) →
      busRead s a = 0 ∧ busWrite a d s = s

/-- R42: address bits 1 and 0 are ignored: an access at `a` is the access at `a & ~3`, whatever it does. -/
def Obligations.LowAddressBitsIgnored : Prop :=
  ∀ (s : State) (a : Addr) (d : Word),
    offset a = a.toNat - a.toNat % 4 ∧
    busRead s a = busRead s (a &&& 0xFFC) ∧ busWrite a d s = busWrite (a &&& 0xFFC) d s

/-- R38: words NW to 63 of every window read 0; writes to them change nothing while idle, and while busy they still
collide in the three operand windows. -/
def Obligations.UnimplementedWindowWords : Prop :=
  ∀ (s : State) (x : Reg) (i : Nat) (d : Word), 32 ≤ i → i < 64 →
    busRead s (windowAddr x i) = 0 ∧
    (s.phase = .idle → busWrite (windowAddr x i) d s = s) ∧
    (∀ c, s.phase = .busy c → x ≠ .res → busWrite (windowAddr x i) d s = { s with coll := true })

/-- R39: the RES window reads RES, and ignores writes in both phases without setting COLL. -/
def Obligations.ResWindowIsReadOnly : Prop :=
  ∀ (s : State) (i : Nat) (a : Addr) (d : Word),
    (i < 32 → busRead s (windowAddr .res i) = word s.res i) ∧
    (0x400 ≤ a.toNat → a.toNat < 0x500 → busWrite a d s = s)

/-! ### Reset, flags and the interrupt -/

/-- 70_reset_and_hazards.md section 1 (R97): what reads after reset: STATUS, CTRL and every word of every window 0,
`irq` 0, ID and PARAM their constants, nothing in execution. -/
def Obligations.ResetStateReads : Prop :=
  AtResetValues State.reset ∧ State.reset.irq = false ∧
  ∀ a : Addr, busRead State.reset a =
    if offset a = 0x000 then 0x4D4D0001 else if offset a = 0x004 then 0x00000400 else 0

/-- 70_reset_and_hazards.md section 1 (R94): from any state and in any phase, when `rst_n` falls the block goes to its
reset values with no completion, it stays there at every step for as long as `rst_n` is 0, and it leaves reset with
them. The level with its two events is the model's (log 7). -/
def Obligations.HardResetHolds : Prop :=
  (∀ s : State, s.nextTurn = .assertReset →
    ∃ t, step s = .next t ∧ AtResetValues t ∧ t.rstN = false ∧ t.host = s.host) ∧
  (∀ s t : State, s.rstN = false → AtResetValues s → step s = .next t → AtResetValues t) ∧
  (∀ s : State, s.nextTurn = .releaseReset → s.rstN = false →
    ∃ t, step s = .next t ∧ AtResetValues t ∧ t.rstN = true ∧ t.host = s.host)

/-- R95: while `rst_n = 0` a bus transaction is refused by name, and the host has no step: any other turn of the host
changes nothing but the schedule. -/
def Obligations.TransactionsDuringResetRefused : Prop :=
  ∀ s : State, s.rstN = false →
    (∀ a d, s.Runs (.wr a d) → step s = .refused (.transactionDuringReset a)) ∧
    (∀ a v, s.Runs (.rd a v) → step s = .refused (.transactionDuringReset a)) ∧
    (s.nextTurn = .host → (∀ a d, s.hostStmt? ≠ some (.wr a d)) → (∀ a v, s.hostStmt? ≠ some (.rd a v)) →
      step s = .next { s with schedule := s.schedule.tail })

/-- 10_state.md section 4 (R27) with R94: every step of every agent keeps the STATUS invariants, holds the block at its
reset values while `rst_n = 0`, and keeps the host's variables in canonical form. -/
def Obligations.InvariantKeptByStep : Prop :=
  ∀ s t : State, MachineInv s → step s = .next t → MachineInv t

/-- The invariant holds after reset. -/
def Obligations.InvariantHoldsAtReset : Prop := MachineInv State.reset

/-- R27 on every run from reset, whatever program is placed and whatever the order of events: the STATUS word the
host reads has BUSY = 1 only with DONE = 0 and ERRCODE = 0, and a code of at most 4. -/
def Obligations.StatusReadsInEveryRun : Prop :=
  ∀ (program : List HostStmt) (schedule : List Turn) (k : Nat) (t : State),
    runFor k { State.reset with host := { program := program, position := 0, vars := [] }, schedule := schedule }
      = .next t →
    let w := busRead t 0x00C
    (w.getLsbD 0 = true → w = 0x00000001 ∨ w = 0x00000009) ∧
    w.toNat / 256 ≤ 4 ∧ (w.getLsbD 2 = true ↔ w.toNat / 256 ≠ 0)

/-- R26: COLL rises exactly at a collision (unless the block is reset), and falls only at a STATUS write with bit 3
set or at a reset. -/
def Obligations.CollIsSticky : Prop :=
  ∀ s t : State, step s = .next t →
    (s.Collides → t.coll = true) ∧
    (s.coll = false → t.coll = true → s.Collides) ∧
    (s.coll = true → t.coll = false →
      s.Resets ∨ ∃ a d, s.Writes a d ∧ offset a = 0x00C ∧ d.getLsbD 3 = true) ∧
    (s.Resets → t.coll = false) ∧
    (∀ a d, s.Writes a d → offset a = 0x00C → d.getLsbD 3 = true → t.coll = false)

/-- R84: `irq = CTRL.IE AND STATUS.DONE`; it rises only at a completion with IE = 1 or at a CTRL write that sets IE
while DONE = 1, and falls only at a STATUS write of bit 1, an acceptance, a reset or a CTRL write that clears IE; each
of these does make it rise or fall; its reset value is 0. -/
def Obligations.IrqRisesAndFallsAsListed : Prop :=
  State.reset.irq = false ∧
  ∀ s t : State, step s = .next t →
    (t.irq = true ↔ t.ie = true ∧ t.done = true) ∧
    (s.irq = false → t.irq = true →
      (s.ie = true ∧ ∃ c, s.Completes c) ∨
      (s.done = true ∧ ∃ a d, s.Writes a d ∧ offset a = 0x008 ∧ d.getLsbD 1 = false ∧ d.getLsbD 0 = true)) ∧
    (s.irq = true → t.irq = false →
      s.Resets ∨ ∃ a d, s.Writes a d ∧
        ((offset a = 0x00C ∧ d.getLsbD 1 = true) ∨ (offset a = 0x010 ∧ s.phase = .idle) ∨
          (offset a = 0x008 ∧ d.getLsbD 0 = false))) ∧
    (s.ie = true → (∃ c, s.Completes c) → t.irq = true) ∧
    (s.done = true → ∀ a d, s.Writes a d → offset a = 0x008 → d.getLsbD 1 = false → d.getLsbD 0 = true →
      t.irq = true) ∧
    (∀ a d, s.Writes a d →
      ((offset a = 0x00C ∧ d.getLsbD 1 = true) ∨ (offset a = 0x010 ∧ s.phase = .idle) ∨
        (offset a = 0x008 ∧ (d.getLsbD 1 = true ∨ d.getLsbD 0 = false))) → t.irq = false) ∧
    (s.HardResets → t.irq = false)

/-- R24: DONE is set by every completion, rises at nothing else, and is cleared only by an acceptance, by a STATUS
write with bit 1 set, or by a reset, each of which does clear it. -/
def Obligations.DoneIsSetAndCleared : Prop :=
  ∀ s t : State, step s = .next t →
    ((∃ c, s.Completes c) → t.done = true) ∧
    (s.done = false → t.done = true → ∃ c, s.Completes c) ∧
    (s.done = true → t.done = false →
      s.Resets ∨ ∃ a d, s.Writes a d ∧
        ((offset a = 0x010 ∧ s.phase = .idle) ∨ (offset a = 0x00C ∧ d.getLsbD 1 = true))) ∧
    (s.Resets → t.done = false) ∧
    (∀ a d, s.Writes a d →
      ((offset a = 0x010 ∧ s.phase = .idle) ∨ (offset a = 0x00C ∧ d.getLsbD 1 = true)) → t.done = false) ∧
    (t.irq = (t.ie && t.done))

/-- R23: BUSY is set by an acceptance and by nothing else, is cleared by the completion of the command and by a reset
and by nothing else, and is what decides a collision. -/
def Obligations.BusyIsSetAndCleared : Prop :=
  ∀ s t : State, step s = .next t →
    (s.busy = false → t.busy = true →
      ∃ a c, s.Writes a c ∧ offset a = 0x010 ∧ t.phase = .busy c) ∧
    (s.busy = false → ∀ a c, s.Writes a c → offset a = 0x010 → t.phase = .busy c) ∧
    (s.busy = true → t.busy = false → s.Resets ∨ ∃ c, s.Completes c) ∧
    (s.Resets ∨ (∃ c, s.Completes c) → t.busy = false) ∧
    (∀ c, s.phase = .busy c → t.busy = true → t.phase = .busy c) ∧
    (∀ a d, s.Writes a d → (offset a = 0x010 ∨ (0x100 ≤ offset a ∧ offset a < 0x400)) →
      t.coll = (s.coll || s.busy))

/-- R25: every completion writes ERRCODE, with 0 on OK and the code on an error; an acceptance and a reset clear it;
nothing else changes it, clearing DONE included; and the ERR bit reads 1 exactly when it is not 0. -/
def Obligations.ErrcodePersists : Prop :=
  ∀ s t : State, step s = .next t →
    (∀ c, s.Completes c →
      match outcome 1024 c s.opa.toNat s.opb.toNat s.mod.toNat with
      | .ok _ => t.errcode = 0
      | .err k => t.errcode = k.bits ∧ t.errcode ≠ 0) ∧
    (∀ a d, s.Writes a d → offset a = 0x010 → s.phase = .idle → t.errcode = 0) ∧
    (s.Resets → t.errcode = 0) ∧
    (t.errcode ≠ s.errcode →
      (∃ c, s.Completes c) ∨ (∃ a d, s.Writes a d ∧ offset a = 0x010 ∧ s.phase = .idle) ∨ s.Resets) ∧
    ((busRead t 0x00C).getLsbD 2 = true ↔ t.errcode ≠ 0)

/-- 10_state.md section 2 (R14 to R18): in one step RES changes only by the OK completion of a legal command or by a
reset, and OPA, OPB and MOD only by an accepted write to their own window while idle or by a reset. -/
def Obligations.RegistersChangeOnlyAsListed : Prop :=
  ∀ s t : State, step s = .next t → ¬s.Resets →
    (t.res ≠ s.res → ∃ c i, s.Completes c ∧ decode c = .command i ∧ t.errcode = 0) ∧
    (t.opa ≠ s.opa → ∃ a d, s.Writes a d ∧ s.phase = .idle ∧ 0x100 ≤ offset a ∧ offset a < 0x180) ∧
    (t.opb ≠ s.opb → ∃ a d, s.Writes a d ∧ s.phase = .idle ∧ 0x200 ≤ offset a ∧ offset a < 0x280) ∧
    (t.mod ≠ s.mod → ∃ a d, s.Writes a d ∧ s.phase = .idle ∧ 0x300 ≤ offset a ∧ offset a < 0x380)

/-! ### The life of a command, under every schedule -/

/-- 10_state.md section 5 (R30) with 60_exceptions.md R76 and 20_memory.md R46: for any number of events after the
acceptance of `c`, if the block has stayed busy, it still executes `c` with the operands and the RES of the
acceptance, and the completion, if it comes next, takes the outcome of those operands. -/
def Obligations.CompletionUsesAcceptedOperands : Prop :=
  ∀ (k : Nat) (s t : State) (c : Word), s.phase = .busy c → s.rstN = true →
    (∀ j u, j ≤ k → runFor j s = .next u → u.busy = true) → runFor k s = .next t →
    t.phase = .busy c ∧ t.opa = s.opa ∧ t.opb = s.opb ∧ t.mod = s.mod ∧ t.res = s.res ∧
    (t.nextTurn = .engine → ∃ u, step t = .next u ∧
      match outcome 1024 c s.opa.toNat s.opb.toNat s.mod.toNat with
      | .ok r => u.res = BitVec.ofNat 1024 r ∧ u.errcode = 0
      | .err code => u.res = s.res ∧ u.errcode = code.bits)

/-- 70_reset_and_hazards.md section 5 (R113), as the model has it (log 3): with no turn of `rst_n` in the schedule, the
command in execution meets its end after at most as many steps as the schedule has turns. The end is its own completion,
which leaves the block idle with DONE = 1, or a soft reset by the host's program, which abandons it and leaves the block
idle with DONE = 0 (R96), or a fault of the host's program (log 5); until then the block stays busy with it. -/
def Obligations.BusyBlockCompletesUnlessHostStopsIt : Prop :=
  ∀ (s : State) (c : Word), s.phase = .busy c → s.rstN = true → NoResetTurns s →
    ∃ k t, k ≤ s.schedule.length ∧ runFor k s = .next t ∧ t.phase = .busy c ∧
      ((t.Completes c ∧ ∃ u, step t = .next u ∧ u.phase = .idle ∧ u.done = true) ∨
        (t.SoftResets ∧ ∃ u, step t = .next u ∧ u.phase = .idle ∧ u.done = false) ∨
        ∃ f, step t = .fault f)

/-- 30_encoding.md section 4 and 70_reset_and_hazards.md section 5 (R61, R113; log 3): a `WAITDONE` loop started while
a command is in execution ends, whatever the order of events without a reset: the host is past the loop, DONE is 1,
the operands and COLL are as they were, and the command has taken its outcome. -/
def Obligations.WaitDoneLoopEnds : Prop :=
  ∀ (s : State) (c : Word) (v : Nat) (l : Nat),
    s.phase = .busy c → s.done = false → s.rstN = true → NoResetTurns s →
    ProgramAhead s (Pseudo.expand (.waitDone v l)) →
    labelPositions l 0 s.host.program = [s.host.position] →
    ∃ k t, runFor k s = .next t ∧ t.host.position = s.host.position + 3 ∧ t.done = true ∧ t.phase = .idle ∧
      t.opa = s.opa ∧ t.opb = s.opb ∧ t.mod = s.mod ∧ t.coll = s.coll ∧
      match outcome 1024 c s.opa.toNat s.opb.toNat s.mod.toNat with
      | .ok r => t.res = BitVec.ofNat 1024 r ∧ t.errcode = 0
      | .err code => t.res = s.res ∧ t.errcode = code.bits

/-- 20_memory.md section 4 and 60_exceptions.md section 4 (R46, R86): both orders of a completion and a racing write
are runs of the model. With the write first it collides and the command completes with the old operands; with the
completion first the write is accepted; the result is the same in both. -/
def Obligations.BothOrdersOfARaceAdmitted : Prop :=
  ∀ (s : State) (c : Word) (x : Reg) (i : Nat) (d : Word), s.phase = .busy c → s.rstN = true → x ≠ .res → i < 32 →
    s.hostStmt? = some (.wr (windowAddr x i) d) →
    ∃ t u, runFor 2 { s with schedule := [.host, .engine] } = .next t ∧
      runFor 2 { s with schedule := [.engine, .host] } = .next u ∧
      t.coll = true ∧ t.reg x = s.reg x ∧ u.coll = s.coll ∧ word (u.reg x) i = d ∧
      t.res = u.res ∧ t.errcode = u.errcode ∧ t.done = true ∧ u.done = true

/-! ### Host programs -/

/-- 30_encoding.md section 4 (R61) `LD X, n`: from an idle block the `NW` writes leave `X` holding `n` mod `2^W` and
change nothing else but the host's position; for RES they change nothing (20_memory.md R39). -/
def Obligations.LoadPseudoWritesRegister : Prop :=
  ∀ (s : State) (x : Reg) (n : Nat), s.phase = .idle → s.rstN = true → OnlyHostTurns s →
    ProgramAhead s (Pseudo.expand (.ld x n)) →
    runFor 32 s = .next
      { (if x = .res then s else s.setReg x (BitVec.ofNat 1024 n)) with
        host := { s.host with position := s.host.position + 32 }
        schedule := s.schedule.drop 32 }

/-- 30_encoding.md section 4 and 70_reset_and_hazards.md section 3 (R61, R101) `LDLO X, n`: it leaves `X = n` when the
words it does not write are 0; otherwise those words stay and are part of `X`. -/
def Obligations.LoadLowKeepsUpperWords : Prop :=
  ∀ (s : State) (x : Reg) (n : Nat), s.phase = .idle → s.rstN = true → OnlyHostTurns s → x ≠ .res →
    n < 2 ^ 1024 → ProgramAhead s (Pseudo.expand (.ldlo x n)) →
    ∃ t, runFor (lowWords n) s = .next t ∧ t = { s.setReg x (t.reg x) with
        host := { s.host with position := s.host.position + lowWords n }
        schedule := s.schedule.drop (lowWords n) } ∧
      (∀ j, lowWords n ≤ j → j < 32 → word (t.reg x) j = word (s.reg x) j) ∧
      ((∀ j, lowWords n ≤ j → j < 32 → word (s.reg x) j = 0) → (t.reg x).toNat = n)

/-- 30_encoding.md section 4 (R61) `GET RES -> v` and `GETLO RES, k -> v`: the reads leave the block unchanged; the
first `k` of them give RES mod `2^(32*k)`, so all 32 give RES, and `k` give it exactly when it is below `2^(32*k)`. -/
def Obligations.GetPseudoReadsResult : Prop :=
  ∀ (s : State) (k : Nat) (v : Nat), k ≤ 32 → s.phase = .idle → s.rstN = true → OnlyHostTurns s →
    (ProgramAhead s (Pseudo.expand (.getlo k v)) ∨ (k = 32 ∧ ProgramAhead s (Pseudo.expand (.get v)))) →
    ∃ t, runFor k s = .next t ∧ SameBlock s t ∧ t.host.position = s.host.position + k ∧
      hostValue t.host.vars v k = s.res.toNat % 2 ^ (32 * k) ∧
      (hostValue t.host.vars v k = s.res.toNat ↔ s.res.toNat < 2 ^ (32 * k))
end

