-- ==== Sys2Proof/Laws/HostVars.lean ====
section
/-! SUPPORT. The host's variables: read after write, and the canonical form every assignment keeps. -/

namespace Sys2Proof.Machine

theorem lookupVar_assignVar_same (v : Nat) (d : Word) (vars : List (Nat × Word)) :
    lookupVar v (assignVar v d vars) = some d := by
  induction vars with
  | nil => simp [assignVar, lookupVar]
  | cons p rest ih =>
    obtain ⟨v', d'⟩ := p
    unfold assignVar
    split
    · simp [lookupVar]
    · split
      · simp [lookupVar]
      · rename_i h
        have : v' ≠ v := fun e => h e.symm
        simp [lookupVar, this, ih]

theorem lookupVar_assignVar_ne {v v' : Nat} (h : v' ≠ v) (d : Word) (vars : List (Nat × Word)) :
    lookupVar v' (assignVar v d vars) = lookupVar v' vars := by
  induction vars with
  | nil => simp [assignVar, lookupVar, h.symm]
  | cons p rest ih =>
    obtain ⟨w, e⟩ := p
    unfold assignVar
    split
    · simp [lookupVar, h.symm]
    · split
      · rename_i hw; subst hw; simp [lookupVar, h.symm]
      · simp [lookupVar, ih]

theorem mem_assignVar_fst {v x : Nat} {d : Word} {vars : List (Nat × Word)}
    (h : x ∈ (assignVar v d vars).map Prod.fst) : x = v ∨ x ∈ vars.map Prod.fst := by
  induction vars with
  | nil => simpa [assignVar] using h
  | cons p rest ih =>
    obtain ⟨w, e⟩ := p
    unfold assignVar at h
    split at h
    · simpa using h
    · split at h
      · rename_i hw; subst hw; simp at h ⊢; tauto
      · simp only [List.map_cons, List.mem_cons] at h ⊢
        rcases h with h | h
        · exact .inr (.inl h)
        · rcases ih h with h | h
          · exact .inl h
          · exact .inr (.inr h)

/-- An assignment keeps the canonical form. -/
theorem varsSorted_assignVar (v : Nat) (d : Word) {vars : List (Nat × Word)} (h : VarsSorted vars) :
    VarsSorted (assignVar v d vars) := by
  induction vars with
  | nil => simp [VarsSorted, assignVar]
  | cons p rest ih =>
    obtain ⟨w, e⟩ := p
    simp only [VarsSorted, List.map_cons, List.pairwise_cons] at h ih ⊢
    unfold assignVar
    split
    · rename_i hlt
      simp only [List.map_cons, List.pairwise_cons, List.mem_cons]
      exact ⟨by rintro x (rfl | hx); exacts [hlt, Nat.lt_trans hlt (h.1 x hx)], h⟩
    · split
      · rename_i hw; subst hw; simpa using h
      · rename_i h1 h2
        simp only [List.map_cons, List.pairwise_cons]
        refine ⟨fun x hx => ?_, ih h.2⟩
        rcases mem_assignVar_fst hx with rfl | hx
        · omega
        · exact h.1 x hx

end Sys2Proof.Machine
end

