-- ==== Sys2Proof/Laws/State.lean ====
section
/-! SUPPORT. One lemma per field per update of the state, true by `rfl`, so that no later proof unfolds a record
update; and the register file's read-after-write laws. -/

namespace Sys2Proof.Machine

/-! ### A turn used up -/

@[simp] theorem State.dropTurn_opa (s : State) : (s.dropTurn).opa = s.opa := rfl
@[simp] theorem State.dropTurn_opb (s : State) : (s.dropTurn).opb = s.opb := rfl
@[simp] theorem State.dropTurn_mod (s : State) : (s.dropTurn).mod = s.mod := rfl
@[simp] theorem State.dropTurn_res (s : State) : (s.dropTurn).res = s.res := rfl
@[simp] theorem State.dropTurn_ie (s : State) : (s.dropTurn).ie = s.ie := rfl
@[simp] theorem State.dropTurn_done (s : State) : (s.dropTurn).done = s.done := rfl
@[simp] theorem State.dropTurn_coll (s : State) : (s.dropTurn).coll = s.coll := rfl
@[simp] theorem State.dropTurn_errcode (s : State) : (s.dropTurn).errcode = s.errcode := rfl
@[simp] theorem State.dropTurn_phase (s : State) : (s.dropTurn).phase = s.phase := rfl
@[simp] theorem State.dropTurn_rstN (s : State) : (s.dropTurn).rstN = s.rstN := rfl
@[simp] theorem State.dropTurn_host (s : State) : (s.dropTurn).host = s.host := rfl
@[simp] theorem State.dropTurn_schedule (s : State) : (s.dropTurn).schedule = s.schedule.tail := rfl

/-! ### The host goes on -/

@[simp] theorem State.advanceHost_opa (s : State) : (s.advanceHost).opa = s.opa := rfl
@[simp] theorem State.advanceHost_opb (s : State) : (s.advanceHost).opb = s.opb := rfl
@[simp] theorem State.advanceHost_mod (s : State) : (s.advanceHost).mod = s.mod := rfl
@[simp] theorem State.advanceHost_res (s : State) : (s.advanceHost).res = s.res := rfl
@[simp] theorem State.advanceHost_ie (s : State) : (s.advanceHost).ie = s.ie := rfl
@[simp] theorem State.advanceHost_done (s : State) : (s.advanceHost).done = s.done := rfl
@[simp] theorem State.advanceHost_coll (s : State) : (s.advanceHost).coll = s.coll := rfl
@[simp] theorem State.advanceHost_errcode (s : State) : (s.advanceHost).errcode = s.errcode := rfl
@[simp] theorem State.advanceHost_phase (s : State) : (s.advanceHost).phase = s.phase := rfl
@[simp] theorem State.advanceHost_rstN (s : State) : (s.advanceHost).rstN = s.rstN := rfl
@[simp] theorem State.advanceHost_host (s : State) : (s.advanceHost).host = { s.host with position := s.host.position + 1 } := rfl
@[simp] theorem State.advanceHost_schedule (s : State) : (s.advanceHost).schedule = s.schedule := rfl

/-! ### The host jumps -/

@[simp] theorem State.jumpHost_opa (s : State) (k : Nat) : (s.jumpHost k).opa = s.opa := rfl
@[simp] theorem State.jumpHost_opb (s : State) (k : Nat) : (s.jumpHost k).opb = s.opb := rfl
@[simp] theorem State.jumpHost_mod (s : State) (k : Nat) : (s.jumpHost k).mod = s.mod := rfl
@[simp] theorem State.jumpHost_res (s : State) (k : Nat) : (s.jumpHost k).res = s.res := rfl
@[simp] theorem State.jumpHost_ie (s : State) (k : Nat) : (s.jumpHost k).ie = s.ie := rfl
@[simp] theorem State.jumpHost_done (s : State) (k : Nat) : (s.jumpHost k).done = s.done := rfl
@[simp] theorem State.jumpHost_coll (s : State) (k : Nat) : (s.jumpHost k).coll = s.coll := rfl
@[simp] theorem State.jumpHost_errcode (s : State) (k : Nat) : (s.jumpHost k).errcode = s.errcode := rfl
@[simp] theorem State.jumpHost_phase (s : State) (k : Nat) : (s.jumpHost k).phase = s.phase := rfl
@[simp] theorem State.jumpHost_rstN (s : State) (k : Nat) : (s.jumpHost k).rstN = s.rstN := rfl
@[simp] theorem State.jumpHost_host (s : State) (k : Nat) : (s.jumpHost k).host = { s.host with position := k } := rfl
@[simp] theorem State.jumpHost_schedule (s : State) (k : Nat) : (s.jumpHost k).schedule = s.schedule := rfl

/-! ### A host variable assigned -/

@[simp] theorem State.assign_opa (s : State) (v : Nat) (d : Word) : (s.assign v d).opa = s.opa := rfl
@[simp] theorem State.assign_opb (s : State) (v : Nat) (d : Word) : (s.assign v d).opb = s.opb := rfl
@[simp] theorem State.assign_mod (s : State) (v : Nat) (d : Word) : (s.assign v d).mod = s.mod := rfl
@[simp] theorem State.assign_res (s : State) (v : Nat) (d : Word) : (s.assign v d).res = s.res := rfl
@[simp] theorem State.assign_ie (s : State) (v : Nat) (d : Word) : (s.assign v d).ie = s.ie := rfl
@[simp] theorem State.assign_done (s : State) (v : Nat) (d : Word) : (s.assign v d).done = s.done := rfl
@[simp] theorem State.assign_coll (s : State) (v : Nat) (d : Word) : (s.assign v d).coll = s.coll := rfl
@[simp] theorem State.assign_errcode (s : State) (v : Nat) (d : Word) : (s.assign v d).errcode = s.errcode := rfl
@[simp] theorem State.assign_phase (s : State) (v : Nat) (d : Word) : (s.assign v d).phase = s.phase := rfl
@[simp] theorem State.assign_rstN (s : State) (v : Nat) (d : Word) : (s.assign v d).rstN = s.rstN := rfl
@[simp] theorem State.assign_host (s : State) (v : Nat) (d : Word) : (s.assign v d).host = { s.host with vars := assignVar v d s.host.vars } := rfl
@[simp] theorem State.assign_schedule (s : State) (v : Nat) (d : Word) : (s.assign v d).schedule = s.schedule := rfl

/-! ### The block reset -/

@[simp] theorem resetRegs_opa (s : State) : (resetRegs s).opa = 0 := rfl
@[simp] theorem resetRegs_opb (s : State) : (resetRegs s).opb = 0 := rfl
@[simp] theorem resetRegs_mod (s : State) : (resetRegs s).mod = 0 := rfl
@[simp] theorem resetRegs_res (s : State) : (resetRegs s).res = 0 := rfl
@[simp] theorem resetRegs_ie (s : State) : (resetRegs s).ie = false := rfl
@[simp] theorem resetRegs_done (s : State) : (resetRegs s).done = false := rfl
@[simp] theorem resetRegs_coll (s : State) : (resetRegs s).coll = false := rfl
@[simp] theorem resetRegs_errcode (s : State) : (resetRegs s).errcode = 0 := rfl
@[simp] theorem resetRegs_phase (s : State) : (resetRegs s).phase = .idle := rfl
@[simp] theorem resetRegs_rstN (s : State) : (resetRegs s).rstN = s.rstN := rfl
@[simp] theorem resetRegs_host (s : State) : (resetRegs s).host = s.host := rfl
@[simp] theorem resetRegs_schedule (s : State) : (resetRegs s).schedule = s.schedule := rfl

/-! ### `rst_n` falls -/

@[simp] theorem assertReset_opa (s : State) : (assertReset s).opa = 0 := rfl
@[simp] theorem assertReset_opb (s : State) : (assertReset s).opb = 0 := rfl
@[simp] theorem assertReset_mod (s : State) : (assertReset s).mod = 0 := rfl
@[simp] theorem assertReset_res (s : State) : (assertReset s).res = 0 := rfl
@[simp] theorem assertReset_ie (s : State) : (assertReset s).ie = false := rfl
@[simp] theorem assertReset_done (s : State) : (assertReset s).done = false := rfl
@[simp] theorem assertReset_coll (s : State) : (assertReset s).coll = false := rfl
@[simp] theorem assertReset_errcode (s : State) : (assertReset s).errcode = 0 := rfl
@[simp] theorem assertReset_phase (s : State) : (assertReset s).phase = .idle := rfl
@[simp] theorem assertReset_rstN (s : State) : (assertReset s).rstN = false := rfl
@[simp] theorem assertReset_host (s : State) : (assertReset s).host = s.host := rfl
@[simp] theorem assertReset_schedule (s : State) : (assertReset s).schedule = s.schedule := rfl

/-! ### A collision -/

@[simp] theorem collide_opa (s : State) : (collide s).opa = s.opa := rfl
@[simp] theorem collide_opb (s : State) : (collide s).opb = s.opb := rfl
@[simp] theorem collide_mod (s : State) : (collide s).mod = s.mod := rfl
@[simp] theorem collide_res (s : State) : (collide s).res = s.res := rfl
@[simp] theorem collide_ie (s : State) : (collide s).ie = s.ie := rfl
@[simp] theorem collide_done (s : State) : (collide s).done = s.done := rfl
@[simp] theorem collide_coll (s : State) : (collide s).coll = true := rfl
@[simp] theorem collide_errcode (s : State) : (collide s).errcode = s.errcode := rfl
@[simp] theorem collide_phase (s : State) : (collide s).phase = s.phase := rfl
@[simp] theorem collide_rstN (s : State) : (collide s).rstN = s.rstN := rfl
@[simp] theorem collide_host (s : State) : (collide s).host = s.host := rfl
@[simp] theorem collide_schedule (s : State) : (collide s).schedule = s.schedule := rfl

/-! ### Acceptance -/

@[simp] theorem issueCommand_opa (c : Word) (s : State) : (issueCommand c s).opa = s.opa := rfl
@[simp] theorem issueCommand_opb (c : Word) (s : State) : (issueCommand c s).opb = s.opb := rfl
@[simp] theorem issueCommand_mod (c : Word) (s : State) : (issueCommand c s).mod = s.mod := rfl
@[simp] theorem issueCommand_res (c : Word) (s : State) : (issueCommand c s).res = s.res := rfl
@[simp] theorem issueCommand_ie (c : Word) (s : State) : (issueCommand c s).ie = s.ie := rfl
@[simp] theorem issueCommand_done (c : Word) (s : State) : (issueCommand c s).done = false := rfl
@[simp] theorem issueCommand_coll (c : Word) (s : State) : (issueCommand c s).coll = s.coll := rfl
@[simp] theorem issueCommand_errcode (c : Word) (s : State) : (issueCommand c s).errcode = 0 := rfl
@[simp] theorem issueCommand_phase (c : Word) (s : State) : (issueCommand c s).phase = .busy c := rfl
@[simp] theorem issueCommand_rstN (c : Word) (s : State) : (issueCommand c s).rstN = s.rstN := rfl
@[simp] theorem issueCommand_host (c : Word) (s : State) : (issueCommand c s).host = s.host := rfl
@[simp] theorem issueCommand_schedule (c : Word) (s : State) : (issueCommand c s).schedule = s.schedule := rfl

/-! ### A STATUS write -/

@[simp] theorem statusWrite_opa (d : Word) (s : State) : (statusWrite d s).opa = s.opa := rfl
@[simp] theorem statusWrite_opb (d : Word) (s : State) : (statusWrite d s).opb = s.opb := rfl
@[simp] theorem statusWrite_mod (d : Word) (s : State) : (statusWrite d s).mod = s.mod := rfl
@[simp] theorem statusWrite_res (d : Word) (s : State) : (statusWrite d s).res = s.res := rfl
@[simp] theorem statusWrite_ie (d : Word) (s : State) : (statusWrite d s).ie = s.ie := rfl
@[simp] theorem statusWrite_done (d : Word) (s : State) : (statusWrite d s).done = (if d.getLsbD 1 then false else s.done) := rfl
@[simp] theorem statusWrite_coll (d : Word) (s : State) : (statusWrite d s).coll = (if d.getLsbD 3 then false else s.coll) := rfl
@[simp] theorem statusWrite_errcode (d : Word) (s : State) : (statusWrite d s).errcode = s.errcode := rfl
@[simp] theorem statusWrite_phase (d : Word) (s : State) : (statusWrite d s).phase = s.phase := rfl
@[simp] theorem statusWrite_rstN (d : Word) (s : State) : (statusWrite d s).rstN = s.rstN := rfl
@[simp] theorem statusWrite_host (d : Word) (s : State) : (statusWrite d s).host = s.host := rfl
@[simp] theorem statusWrite_schedule (d : Word) (s : State) : (statusWrite d s).schedule = s.schedule := rfl

/-! ### An OK completion -/

@[simp] theorem finishOk_opa (r : Nat) (s : State) : (finishOk r s).opa = s.opa := rfl
@[simp] theorem finishOk_opb (r : Nat) (s : State) : (finishOk r s).opb = s.opb := rfl
@[simp] theorem finishOk_mod (r : Nat) (s : State) : (finishOk r s).mod = s.mod := rfl
@[simp] theorem finishOk_res (r : Nat) (s : State) : (finishOk r s).res = BitVec.ofNat 1024 r := rfl
@[simp] theorem finishOk_ie (r : Nat) (s : State) : (finishOk r s).ie = s.ie := rfl
@[simp] theorem finishOk_done (r : Nat) (s : State) : (finishOk r s).done = true := rfl
@[simp] theorem finishOk_coll (r : Nat) (s : State) : (finishOk r s).coll = s.coll := rfl
@[simp] theorem finishOk_errcode (r : Nat) (s : State) : (finishOk r s).errcode = 0 := rfl
@[simp] theorem finishOk_phase (r : Nat) (s : State) : (finishOk r s).phase = .idle := rfl
@[simp] theorem finishOk_rstN (r : Nat) (s : State) : (finishOk r s).rstN = s.rstN := rfl
@[simp] theorem finishOk_host (r : Nat) (s : State) : (finishOk r s).host = s.host := rfl
@[simp] theorem finishOk_schedule (r : Nat) (s : State) : (finishOk r s).schedule = s.schedule := rfl

/-! ### An erroring completion -/

@[simp] theorem finishErr_opa (k : BitVec 4) (s : State) : (finishErr k s).opa = s.opa := rfl
@[simp] theorem finishErr_opb (k : BitVec 4) (s : State) : (finishErr k s).opb = s.opb := rfl
@[simp] theorem finishErr_mod (k : BitVec 4) (s : State) : (finishErr k s).mod = s.mod := rfl
@[simp] theorem finishErr_res (k : BitVec 4) (s : State) : (finishErr k s).res = s.res := rfl
@[simp] theorem finishErr_ie (k : BitVec 4) (s : State) : (finishErr k s).ie = s.ie := rfl
@[simp] theorem finishErr_done (k : BitVec 4) (s : State) : (finishErr k s).done = true := rfl
@[simp] theorem finishErr_coll (k : BitVec 4) (s : State) : (finishErr k s).coll = s.coll := rfl
@[simp] theorem finishErr_errcode (k : BitVec 4) (s : State) : (finishErr k s).errcode = k := rfl
@[simp] theorem finishErr_phase (k : BitVec 4) (s : State) : (finishErr k s).phase = .idle := rfl
@[simp] theorem finishErr_rstN (k : BitVec 4) (s : State) : (finishErr k s).rstN = s.rstN := rfl
@[simp] theorem finishErr_host (k : BitVec 4) (s : State) : (finishErr k s).host = s.host := rfl
@[simp] theorem finishErr_schedule (k : BitVec 4) (s : State) : (finishErr k s).schedule = s.schedule := rfl

/-! ### Acceptance, written out -/

@[simp] theorem accepted_opa (c : Word) (s : State) : (accepted c s).opa = s.opa := rfl
@[simp] theorem accepted_opb (c : Word) (s : State) : (accepted c s).opb = s.opb := rfl
@[simp] theorem accepted_mod (c : Word) (s : State) : (accepted c s).mod = s.mod := rfl
@[simp] theorem accepted_res (c : Word) (s : State) : (accepted c s).res = s.res := rfl
@[simp] theorem accepted_ie (c : Word) (s : State) : (accepted c s).ie = s.ie := rfl
@[simp] theorem accepted_done (c : Word) (s : State) : (accepted c s).done = false := rfl
@[simp] theorem accepted_coll (c : Word) (s : State) : (accepted c s).coll = s.coll := rfl
@[simp] theorem accepted_errcode (c : Word) (s : State) : (accepted c s).errcode = 0 := rfl
@[simp] theorem accepted_phase (c : Word) (s : State) : (accepted c s).phase = .busy c := rfl
@[simp] theorem accepted_rstN (c : Word) (s : State) : (accepted c s).rstN = s.rstN := rfl
@[simp] theorem accepted_host (c : Word) (s : State) : (accepted c s).host = s.host := rfl
@[simp] theorem accepted_schedule (c : Word) (s : State) : (accepted c s).schedule = s.schedule := rfl

/-! ### A register replaced -/

@[simp] theorem State.setReg_ie (s : State) (x : Reg) (v : Operand) : (s.setReg x v).ie = s.ie := by cases x <;> rfl
@[simp] theorem State.setWindowWord_ie (s : State) (x : Reg) (i : Nat) (d : Word) :
    (s.setWindowWord x i d).ie = s.ie := by unfold State.setWindowWord; split <;> simp
@[simp] theorem State.setReg_done (s : State) (x : Reg) (v : Operand) : (s.setReg x v).done = s.done := by cases x <;> rfl
@[simp] theorem State.setWindowWord_done (s : State) (x : Reg) (i : Nat) (d : Word) :
    (s.setWindowWord x i d).done = s.done := by unfold State.setWindowWord; split <;> simp
@[simp] theorem State.setReg_coll (s : State) (x : Reg) (v : Operand) : (s.setReg x v).coll = s.coll := by cases x <;> rfl
@[simp] theorem State.setWindowWord_coll (s : State) (x : Reg) (i : Nat) (d : Word) :
    (s.setWindowWord x i d).coll = s.coll := by unfold State.setWindowWord; split <;> simp
@[simp] theorem State.setReg_errcode (s : State) (x : Reg) (v : Operand) : (s.setReg x v).errcode = s.errcode := by cases x <;> rfl
@[simp] theorem State.setWindowWord_errcode (s : State) (x : Reg) (i : Nat) (d : Word) :
    (s.setWindowWord x i d).errcode = s.errcode := by unfold State.setWindowWord; split <;> simp
@[simp] theorem State.setReg_phase (s : State) (x : Reg) (v : Operand) : (s.setReg x v).phase = s.phase := by cases x <;> rfl
@[simp] theorem State.setWindowWord_phase (s : State) (x : Reg) (i : Nat) (d : Word) :
    (s.setWindowWord x i d).phase = s.phase := by unfold State.setWindowWord; split <;> simp
@[simp] theorem State.setReg_rstN (s : State) (x : Reg) (v : Operand) : (s.setReg x v).rstN = s.rstN := by cases x <;> rfl
@[simp] theorem State.setWindowWord_rstN (s : State) (x : Reg) (i : Nat) (d : Word) :
    (s.setWindowWord x i d).rstN = s.rstN := by unfold State.setWindowWord; split <;> simp
@[simp] theorem State.setReg_host (s : State) (x : Reg) (v : Operand) : (s.setReg x v).host = s.host := by cases x <;> rfl
@[simp] theorem State.setWindowWord_host (s : State) (x : Reg) (i : Nat) (d : Word) :
    (s.setWindowWord x i d).host = s.host := by unfold State.setWindowWord; split <;> simp
@[simp] theorem State.setReg_schedule (s : State) (x : Reg) (v : Operand) : (s.setReg x v).schedule = s.schedule := by cases x <;> rfl
@[simp] theorem State.setWindowWord_schedule (s : State) (x : Reg) (i : Nat) (d : Word) :
    (s.setWindowWord x i d).schedule = s.schedule := by unfold State.setWindowWord; split <;> simp

@[simp] theorem State.reg_opa (s : State) : s.reg .opa = s.opa := rfl
@[simp] theorem State.reg_opb (s : State) : s.reg .opb = s.opb := rfl
@[simp] theorem State.reg_mod (s : State) : s.reg .mod = s.mod := rfl
@[simp] theorem State.reg_res (s : State) : s.reg .res = s.res := rfl

@[simp] theorem State.reg_setReg_same (s : State) (x : Reg) (v : Operand) : (s.setReg x v).reg x = v := by
  cases x <;> rfl

theorem State.reg_setReg_ne (s : State) (x y : Reg) (v : Operand) (h : y ≠ x) :
    (s.setReg x v).reg y = s.reg y := by
  cases x <;> cases y <;> first | rfl | exact absurd rfl h

@[simp] theorem State.setReg_setReg (s : State) (x : Reg) (u v : Operand) :
    (s.setReg x u).setReg x v = s.setReg x v := by
  cases x <;> rfl

@[simp] theorem State.setReg_reg (s : State) (x : Reg) : s.setReg x (s.reg x) = s := by
  cases x <;> rfl

@[simp] theorem State.dropTurn_reg (s : State) (x : Reg) : s.dropTurn.reg x = s.reg x := by
  cases x <;> rfl

@[simp] theorem State.advanceHost_reg (s : State) (x : Reg) : s.advanceHost.reg x = s.reg x := by
  cases x <;> rfl

@[simp] theorem State.dropTurn_hostStmt? (s : State) : s.dropTurn.hostStmt? = s.hostStmt? := rfl

/-! ### Views -/

@[simp] theorem State.busy_of_idle {s : State} (h : s.phase = .idle) : s.busy = false := by
  simp [State.busy, h]

@[simp] theorem State.busy_of_busy {s : State} {c : Word} (h : s.phase = .busy c) : s.busy = true := by
  simp [State.busy, h]

theorem State.busy_eq_true_iff (s : State) : s.busy = true ↔ ∃ c, s.phase = .busy c := by
  cases h : s.phase <;> simp [State.busy, h]

theorem State.busy_eq_false_iff (s : State) : s.busy = false ↔ s.phase = .idle := by
  cases h : s.phase <;> simp [State.busy, h]

theorem SameBlock.refl (s : State) : SameBlock s s := ⟨rfl, rfl, rfl, rfl, rfl, rfl, rfl, rfl, rfl⟩

theorem SameRest.refl (s : State) : SameRest s s := ⟨rfl, rfl, rfl⟩

theorem atResetValues_resetRegs (s : State) : AtResetValues (resetRegs s) :=
  ⟨rfl, rfl, rfl, rfl, rfl, rfl, rfl, rfl, rfl⟩

end Sys2Proof.Machine
end

