-- ==== Sys2Proof/Laws/Words.lean ====
section
/-! SUPPORT. The register map and the words of a register: offsets as arithmetic on addresses, what a window address
names, and the read-after-write laws of `word` and `setWord`. -/

namespace Sys2Proof.Machine

theorem wordIndex_eq (a : Addr) : wordIndex a = a.toNat / 4 := by
  have := a.isLt
  simp only [wordIndex, BitVec.extractLsb'_toNat, Nat.shiftRight_eq_div_pow]
  omega

theorem offset_eq (a : Addr) : offset a = 4 * (a.toNat / 4) := by
  rw [offset, wordIndex_eq]

theorem offset_lt (a : Addr) : offset a < 4096 := by
  have := a.isLt
  rw [offset_eq]
  omega

theorem windowAddr_toNat (x : Reg) (i : Nat) (h : i < 64) :
    (windowAddr x i).toNat = windowBase x + 4 * i := by
  cases x <;> simp [windowAddr, windowBase] <;> omega

theorem offset_windowAddr (x : Reg) (i : Nat) (h : i < 64) :
    offset (windowAddr x i) = windowBase x + 4 * i := by
  rw [offset_eq, windowAddr_toNat x i h]
  cases x <;> simp [windowBase] <;> omega

/-- A window address names the word it was made from. -/
theorem target_windowAddr (x : Reg) (i : Nat) (h : i < 64) : target (windowAddr x i) = .window x i := by
  rw [target, offset_windowAddr x i h]
  have key : ∀ n, n < 4 → ∀ b, b = 0x100 + 0x100 * n →
      offsetTarget (b + 4 * i) = .window (windowReg n) i := by
    intro n hn b hb
    have h1 : (b + 4 * i - 0x100) / 0x100 = n := by omega
    have h2 : (b + 4 * i - 0x100) % 0x100 / 4 = i := by omega
    simp only [offsetTarget, h1, h2]
    have : 0x100 ≤ b + 4 * i ∧ b + 4 * i < 0x500 := by omega
    simp only [this, and_self, if_true]
    repeat' split
    all_goals first | rfl | omega
  cases x
  · exact key 0 (by decide) 0x100 rfl
  · exact key 1 (by decide) 0x200 rfl
  · exact key 2 (by decide) 0x300 rfl
  · exact key 3 (by decide) 0x400 rfl

/-- What an address names, by its offset: everything `target` can be. -/
theorem target_cases (a : Addr) :
    (offset a = 0x000 ∧ target a = .id) ∨ (offset a = 0x004 ∧ target a = .param) ∨
    (offset a = 0x008 ∧ target a = .ctrl) ∨ (offset a = 0x00C ∧ target a = .status) ∨
    (offset a = 0x010 ∧ target a = .cmd) ∨
    (∃ x i, i < 64 ∧ offset a = windowBase x + 4 * i ∧ target a = .window x i) ∨
    (((0x014 ≤ offset a ∧ offset a < 0x100) ∨ 0x500 ≤ offset a) ∧ target a = .reserved) := by
  have h4 : offset a % 4 = 0 := by rw [offset_eq]; omega
  rcases Nat.lt_or_ge (offset a) 0x100 with h | h
  · unfold target offsetTarget
    rcases Nat.lt_or_ge (offset a) 0x014 with h' | h'
    · have : offset a = 0 ∨ offset a = 4 ∨ offset a = 8 ∨ offset a = 12 ∨ offset a = 16 := by omega
      rcases this with e | e | e | e | e <;> simp [e]
    · have n0 : offset a ≠ 0 := by omega
      have n1 : offset a ≠ 4 := by omega
      have n2 : offset a ≠ 8 := by omega
      have n3 : offset a ≠ 12 := by omega
      have n4 : offset a ≠ 16 := by omega
      have n5 : ¬(256 ≤ offset a) := by omega
      simp [n0, n1, n2, n3, n4, n5, h, h']
  · rcases Nat.lt_or_ge (offset a) 0x500 with h' | h'
    · right; right; right; right; right; left
      have lt := Nat.mod_lt (offset a) (show 0 < 0x100 by decide)
      obtain ⟨x, hx⟩ : ∃ x, windowBase x = 0x100 * (offset a / 0x100) := by
        have : offset a / 0x100 = 1 ∨ offset a / 0x100 = 2 ∨ offset a / 0x100 = 3 ∨ offset a / 0x100 = 4 := by omega
        rcases this with e | e | e | e
        · exact ⟨.opa, by rw [e]; rfl⟩
        · exact ⟨.opb, by rw [e]; rfl⟩
        · exact ⟨.mod, by rw [e]; rfl⟩
        · exact ⟨.res, by rw [e]; rfl⟩
      have hi : offset a % 0x100 / 4 < 64 := by omega
      refine ⟨x, offset a % 0x100 / 4, hi, by omega, ?_⟩
      have ho := offset_windowAddr x (offset a % 0x100 / 4) hi
      have ht := target_windowAddr x (offset a % 0x100 / 4) hi
      have : offset a = offset (windowAddr x (offset a % 0x100 / 4)) := by omega
      unfold target at ht ⊢
      rw [← this] at ht
      exact ht
    · have n5 : ¬(offset a < 1280) := by omega
      have n0 : offset a ≠ 0 := by omega
      have n1 : offset a ≠ 4 := by omega
      have n2 : offset a ≠ 8 := by omega
      have n3 : offset a ≠ 12 := by omega
      have n4 : offset a ≠ 16 := by omega
      simp [target, offsetTarget, n0, n1, n2, n3, n4, n5, h']

/-- A word of a register, as arithmetic (20_memory.md R34). -/
theorem word_toNat (x : Operand) (i : Nat) : (word x i).toNat = x.toNat / 2 ^ (32 * i) % 2 ^ 32 := by
  simp [word, BitVec.extractLsb'_toNat, Nat.shiftRight_eq_div_pow]

theorem word_getLsbD (x : Operand) (i j : Nat) (h : j < 32) : (word x i).getLsbD j = x.getLsbD (32 * i + j) := by
  simp [word, h]

/-- The bits of a register after a word is replaced. -/
theorem setWord_getLsbD (x : Operand) (i k : Nat) (d : Word) (hk : k < 1024) :
    (setWord x i d).getLsbD k =
      if 32 * i ≤ k ∧ k < 32 * i + 32 then d.getLsbD (k - 32 * i) else x.getLsbD k := by
  have hs : k - 32 * i < 1024 := by omega
  have hlow : k < 32 * i → d.getLsbD (k - 32 * i) = d.getLsbD 0 := by
    intro h; congr 1; omega
  simp only [setWord, BitVec.getLsbD_or, BitVec.getLsbD_and, BitVec.getLsbD_not, BitVec.getLsbD_shiftLeft,
    BitVec.getLsbD_setWidth, BitVec.getLsbD_allOnes, hk, hs, decide_true, Bool.true_and]
  by_cases h1 : k < 32 * i
  · have h2 : ¬(32 * i ≤ k) := by omega
    simp [h1, h2]
  · by_cases h2 : k < 32 * i + 32
    · have h3 : k - 32 * i < 32 := by omega
      have h4 : 32 * i ≤ k := by omega
      simp [h1, h2, h3, h4]
    · have h3 : ¬(k - 32 * i < 32) := by omega
      have h4 : d.getLsbD (k - 32 * i) = false := BitVec.getLsbD_of_ge d _ (by omega)
      simp [h1, h2, h3, h4]

/-- The word written is the word read. -/
theorem word_setWord_same (x : Operand) (i : Nat) (d : Word) (h : i < 32) : word (setWord x i d) i = d := by
  apply BitVec.eq_of_getLsbD_eq
  intro j hj
  rw [word_getLsbD _ _ _ hj, setWord_getLsbD _ _ _ _ (by omega)]
  have : 32 * i ≤ 32 * i + j ∧ 32 * i + j < 32 * i + 32 := by omega
  simp [hj]

/-- Every other word stays. -/
theorem word_setWord_ne (x : Operand) (i j : Nat) (d : Word) (hj : j < 32) (hne : j ≠ i) :
    word (setWord x i d) j = word x j := by
  apply BitVec.eq_of_getLsbD_eq
  intro k hk
  rw [word_getLsbD _ _ _ hk, word_getLsbD _ _ _ hk, setWord_getLsbD _ _ _ _ (by omega)]
  have : ¬(32 * i ≤ 32 * j + k ∧ 32 * j + k < 32 * i + 32) := by omega
  simp [this]

/-- A register is its 32 words. -/
theorem operand_ext (x y : Operand) (h : ∀ i, i < 32 → word x i = word y i) : x = y := by
  apply BitVec.eq_of_getLsbD_eq
  intro k hk
  have := congrArg (fun w : Word => w.getLsbD (k % 32)) (h (k / 32) (by omega))
  simp only [word_getLsbD _ _ _ (show k % 32 < 32 by omega)] at this
  rwa [show 32 * (k / 32) + k % 32 = k by omega] at this

/-- The words of a natural number are the words of the register that holds it. -/
theorem natWord_eq_word (n i : Nat) (h : i < 32) : natWord n i = word (BitVec.ofNat 1024 n) i := by
  apply BitVec.eq_of_toNat_eq
  rw [word_toNat]
  simp only [natWord, BitVec.toNat_ofNat]
  have e : 1024 = 32 * i + (1024 - 32 * i) := by omega
  have d : (2 : Nat) ^ 32 ∣ 2 ^ (1024 - 32 * i) := Nat.pow_dvd_pow 2 (by omega)
  conv_rhs => rw [e, Nat.pow_add, Nat.mod_mul_right_div_self]
  exact (Nat.mod_mod_of_dvd _ d).symm

end Sys2Proof.Machine
end

