-- ==== Sys2Proof/Laws/Ops.lean ====
section
/-! SUPPORT. For each shared operation, once, what it does: a bus read and a bus write by the offset they are at, a
completion by its outcome, the words STATUS and CTRL by their bits. -/

namespace Sys2Proof.Machine

/-! ### Completion -/

theorem complete_ok (r : Nat) (s : State) : complete (.ok r) s = finishOk r s := rfl

theorem complete_err (k : ErrCode) (s : State) : complete (.err k) s = finishErr k.bits s := rfl

theorem withModulus_zero (out : Completion) : withModulus 0 out = .err .invalidModulus := rfl

theorem withModulus_pos {m : Nat} (h : m ≠ 0) (out : Completion) : withModulus m out = out := by
  simp [withModulus, h]

/-- All a completion can do: it writes RES (on OK), ERRCODE, PHASE and DONE, and nothing else. -/
theorem complete_frame (out : Completion) (s : State) :
    (complete out s).opa = s.opa ∧ (complete out s).opb = s.opb ∧ (complete out s).mod = s.mod ∧
      (complete out s).ie = s.ie ∧ (complete out s).coll = s.coll ∧ SameRest s (complete out s) ∧
      (complete out s).phase = .idle ∧ (complete out s).done = true := by
  cases out <;> exact ⟨rfl, rfl, rfl, rfl, rfl, ⟨rfl, rfl, rfl⟩, rfl, rfl⟩

theorem ErrCode.bits_ne_zero (k : ErrCode) : k.bits ≠ 0 := by cases k <;> decide

theorem ErrCode.bits_le (k : ErrCode) : k.bits.toNat ≤ 4 := by cases k <;> decide

/-- An error leaves RES unchanged. -/
theorem complete_errcode (out : Completion) (s : State) :
    (∃ r, out = .ok r ∧ (complete out s).errcode = 0 ∧ (complete out s).res = BitVec.ofNat 1024 r) ∨
    (∃ k, out = .err k ∧ (complete out s).errcode = k.bits ∧ (complete out s).res = s.res) := by
  cases out with
  | ok r => exact .inl ⟨r, rfl, rfl, rfl⟩
  | err k => exact .inr ⟨k, rfl, rfl, rfl⟩

/-! ### Words of the control registers -/

theorem ctrlWord_toNat (s : State) : s.ctrlWord.toNat = if s.ie then 1 else 0 := by
  simp only [State.ctrlWord]
  cases s.ie <;> rfl

theorem statusWord_toNat (s : State) :
    s.statusWord.toNat = (if s.busy then 1 else 0) + (if s.done then 2 else 0) + (if s.errcode ≠ 0 then 4 else 0) +
      (if s.coll then 8 else 0) + 256 * s.errcode.toNat := by
  simp only [State.statusWord, State.errFlag]
  generalize s.errcode = e
  generalize s.busy = b
  generalize s.done = d
  generalize s.coll = c
  revert e b d c
  decide

theorem statusWord_bits (s : State) :
    s.statusWord.getLsbD 0 = s.busy ∧ s.statusWord.getLsbD 1 = s.done ∧
      s.statusWord.getLsbD 2 = decide (s.errcode ≠ 0) ∧ s.statusWord.getLsbD 3 = s.coll := by
  simp only [State.statusWord, State.errFlag]
  generalize s.errcode = e
  generalize s.busy = b
  generalize s.done = d
  generalize s.coll = c
  revert e b d c
  decide

/-! ### Bus reads -/

theorem busRead_window (s : State) (x : Reg) (i : Nat) (h : i < 32) :
    busRead s (windowAddr x i) = word (s.reg x) i := by
  rw [busRead, target_windowAddr x i (by omega)]
  simp [State.windowWord, h]

/-- A read depends on the block alone. -/
theorem busRead_congr {s t : State} (h : SameBlock s t) (a : Addr) : busRead t a = busRead s a := by
  obtain ⟨h1, h2, h3, h4, h5, h6, h7, h8, h9⟩ := h
  have hr : ∀ x, t.reg x = s.reg x := by intro x; cases x <;> assumption
  simp only [busRead, State.ctrlWord, State.statusWord, State.errFlag, State.busy, State.windowWord, hr, h5, h6, h7,
    h8, h9]

/-! ### Bus writes -/

theorem ctrlWrite_eq (d : Word) (s : State) :
    ctrlWrite d s = if d.getLsbD 1 then resetRegs s else { s with ie := d.getLsbD 0 } := rfl

theorem cmdWrite_idle {s : State} (h : s.phase = .idle) (d : Word) : cmdWrite d s = accepted d s := by
  simp only [cmdWrite, h]; rfl

theorem cmdWrite_busy {s : State} {c : Word} (h : s.phase = .busy c) (d : Word) : cmdWrite d s = collide s := by
  simp only [cmdWrite, h]

theorem operandWrite_idle {s : State} (h : s.phase = .idle) (x : Reg) (i : Nat) (d : Word) :
    operandWrite x i d s = s.setWindowWord x i d := by
  simp only [operandWrite, h]

theorem operandWrite_busy {s : State} {c : Word} (h : s.phase = .busy c) (x : Reg) (i : Nat) (d : Word) :
    operandWrite x i d s = collide s := by
  simp only [operandWrite, h]

theorem windowWrite_res (i : Nat) (d : Word) (s : State) : windowWrite .res i d s = s := rfl

theorem windowWrite_operand {x : Reg} (h : x ≠ .res) (i : Nat) (d : Word) (s : State) :
    windowWrite x i d s = operandWrite x i d s := by
  cases x <;> first | rfl | exact absurd rfl h

theorem setWindowWord_lt {i : Nat} (h : i < 32) (s : State) (x : Reg) (d : Word) :
    s.setWindowWord x i d = s.setReg x (setWord (s.reg x) i d) := by
  simp [State.setWindowWord, h]

theorem setWindowWord_ge {i : Nat} (h : 32 ≤ i) (s : State) (x : Reg) (d : Word) : s.setWindowWord x i d = s := by
  simp [State.setWindowWord, h]

theorem busWrite_window (s : State) (x : Reg) (i : Nat) (d : Word) (h : i < 64) :
    busWrite (windowAddr x i) d s = windowWrite x i d s := by
  rw [busWrite, target_windowAddr x i h]

/-- Everything a bus write can do, by the offset it is at (20_memory.md R36). -/
theorem busWrite_cases (a : Addr) (d : Word) (s : State) :
    (offset a = 0x008 ∧ d.getLsbD 1 = true ∧ busWrite a d s = resetRegs s) ∨
    (offset a = 0x008 ∧ d.getLsbD 1 = false ∧ busWrite a d s = { s with ie := d.getLsbD 0 }) ∨
    (offset a = 0x00C ∧ busWrite a d s = statusWrite d s) ∨
    (offset a = 0x010 ∧ s.phase = .idle ∧ busWrite a d s = accepted d s) ∨
    ((offset a = 0x010 ∨ (0x100 ≤ offset a ∧ offset a < 0x400)) ∧ (∃ c, s.phase = .busy c) ∧
      busWrite a d s = collide s) ∨
    (∃ x i, x ≠ .res ∧ i < 32 ∧ offset a = windowBase x + 4 * i ∧ s.phase = .idle ∧
      busWrite a d s = s.setReg x (setWord (s.reg x) i d)) ∨
    (∃ x i, x ≠ .res ∧ 32 ≤ i ∧ i < 64 ∧ offset a = windowBase x + 4 * i ∧ s.phase = .idle ∧ busWrite a d s = s) ∨
    ((offset a = 0x000 ∨ offset a = 0x004 ∨ (0x014 ≤ offset a ∧ offset a < 0x100) ∨ 0x400 ≤ offset a) ∧
      busWrite a d s = s) := by
  rcases target_cases a with ⟨ho, ht⟩ | ⟨ho, ht⟩ | ⟨ho, ht⟩ | ⟨ho, ht⟩ | ⟨ho, ht⟩ | ⟨x, i, hi, ho, ht⟩ | ⟨ho, ht⟩ <;>
    simp only [busWrite, ht]
  · simp [ho]
  · simp [ho]
  · cases hd : d.getLsbD 1 with
    | true => exact .inl ⟨ho, rfl, by rw [ctrlWrite, hd]; rfl⟩
    | false => exact .inr (.inl ⟨ho, rfl, by rw [ctrlWrite, hd]; rfl⟩)
  · simp [ho]
  · cases hp : s.phase with
    | idle => simp [ho, cmdWrite_idle hp]
    | busy c => simp [ho, cmdWrite_busy hp]
  · by_cases hx : x = .res
    · subst hx
      have : 0x400 ≤ offset a := by simp [ho, windowBase]
      simp [this, windowWrite_res]
    · have hb : 0x100 ≤ offset a ∧ offset a < 0x400 := by
        cases x <;> simp [windowBase] at ho hx <;> omega
      rw [windowWrite_operand hx]
      cases hp : s.phase with
      | busy c => simp [hb, operandWrite_busy hp]
      | idle =>
        rw [operandWrite_idle hp]
        by_cases h32 : i < 32
        · right; right; right; right; right; left
          exact ⟨x, i, hx, h32, ho, rfl, setWindowWord_lt h32 s x d⟩
        · right; right; right; right; right; right; left
          exact ⟨x, i, hx, by omega, hi, ho, rfl, setWindowWord_ge (by omega) s x d⟩
  · have : (0x014 ≤ offset a ∧ offset a < 0x100) ∨ 0x400 ≤ offset a := by omega
    rcases this with h | h <;> simp [h]

/-- A bus write changes registers of the block only. -/
theorem busWrite_rest (a : Addr) (d : Word) (s : State) : SameRest s (busWrite a d s) := by
  rcases busWrite_cases a d s with ⟨-, -, h⟩ | ⟨-, -, h⟩ | ⟨-, h⟩ | ⟨-, -, h⟩ | ⟨-, -, h⟩ | ⟨x, i, -, -, -, -, h⟩ |
    ⟨x, i, -, -, -, -, -, h⟩ | ⟨-, h⟩ <;> rw [h] <;> simp [SameRest]

end Sys2Proof.Machine
end

