-- ==== Sys2Proof/Laws/PerInstr.lean ====
section
/-! SUPPORT. Statements about every instruction as syntax, one lemma per constructor. -/

namespace Sys2Proof.Laws.CommandFormat

/-- The word of a command has the format of 30_encoding.md R53: RSV is 0, OP is its code, and it is well formed. -/
def Statement (i : Instr) : Prop :=
  i.wellFormed = true ∧ rsvField (encode i) = 0 ∧ opField (encode i) = opCode i ∧
    commandWordWellFormed (encode i) = true

theorem modmul : Statement .modmul := by unfold Statement; decide
theorem montmul : Statement .montmul := by unfold Statement; decide
theorem modexp : Statement .modexp := by unfold Statement; decide
theorem modinv : Statement .modinv := by unfold Statement; decide

end Sys2Proof.Laws.CommandFormat
end

