-- ==== Sys2Proof/Laws/Step.lean ====
section
/-! SUPPORT. Once, what each agent's turn and the step can do: if they answer a next state, which one; if they stop,
why. Later proofs cite these and do not unfold `step`, `hostTurn`, `engineTurn` or `exec`. -/

namespace Sys2Proof.Machine

/-! ### The commands -/

/-- Every command is the completion with its outcome. -/
theorem exec_eq_complete (i : Instr) (s : State) :
    exec i s = .next (complete (instrOutcome 1024 i s.opa.toNat s.opb.toNat s.mod.toNat) s) := by
  cases i <;> rfl

/-- The completion of any word, legal or not, takes the outcome of R78. -/
theorem completeWord_eq (c : Word) (s : State) :
    completeWord c s = .next (complete (outcome 1024 c s.opa.toNat s.opb.toNat s.mod.toNat) s) := by
  unfold completeWord outcome
  cases decode c with
  | command i => exact exec_eq_complete i s
  | illegal _ => rfl

/-! ### The turns -/

theorem nextTurn_cons {s : State} {t : Turn} {l : List Turn} (h : s.schedule = t :: l) : s.nextTurn = t := by
  simp [State.nextTurn, h]

theorem nextTurn_nil {s : State} (h : s.schedule = []) :
    s.nextTurn = if s.rstN && !s.busy then .host else .engine := by
  simp [State.nextTurn, h]

theorem dropTurn_nil {s : State} (h : s.schedule = []) : s.dropTurn = s := by
  cases s
  simp_all [State.dropTurn]

theorem step_host {s : State} (h : s.nextTurn = .host) : step s = hostTurn s.dropTurn := by simp [step, h]

theorem step_engine {s : State} (h : s.nextTurn = .engine) : step s = engineTurn s.dropTurn := by simp [step, h]

theorem step_assertReset {s : State} (h : s.nextTurn = .assertReset) : step s = .next (assertReset s.dropTurn) := by
  simp [step, h]

theorem step_releaseReset {s : State} (h : s.nextTurn = .releaseReset) :
    step s = .next (releaseReset s.dropTurn) := by
  simp [step, h]

/-- What an engine's turn does. It never stops. -/
theorem engineTurn_cases (s : State) :
    (s.rstN = false ∧ engineTurn s = .next (resetRegs s)) ∨
    (s.rstN = true ∧ s.phase = .idle ∧ engineTurn s = .next s) ∨
    (∃ c, s.rstN = true ∧ s.phase = .busy c ∧
      engineTurn s = .next (complete (outcome 1024 c s.opa.toNat s.opb.toNat s.mod.toNat) s)) := by
  cases hr : s.rstN with
  | false => exact .inl ⟨rfl, by simp [engineTurn, hr]⟩
  | true =>
    cases hp : s.phase with
    | idle => exact .inr (.inl ⟨rfl, rfl, by simp [engineTurn, hr, hp]⟩)
    | busy c => exact .inr (.inr ⟨c, rfl, rfl, by simp [engineTurn, hr, hp, completeWord_eq]⟩)

/-- If a branch answers a next state, only the host's position has changed. -/
theorem hostBranch_next {z : Bool} {v : Nat} {mask : Word} {l : Nat} {s t : State}
    (h : hostBranch z v mask l s = .next t) : ∃ k, t = s.jumpHost k := by
  unfold hostBranch hostJump at h
  split at h
  · cases h
  · split at h
    · split at h
      · cases h
      · cases h; exact ⟨_, rfl⟩
      · cases h
    · cases h; exact ⟨s.host.position + 1, rfl⟩

/-- Why a branch stops. -/
theorem hostBranch_fault {z : Bool} {v : Nat} {mask : Word} {l : Nat} {s : State} {f : Fault}
    (h : hostBranch z v mask l s = .fault f) :
    (f = .hostVarUnset v ∧ lookupVar v s.host.vars = none) ∨
      (f = .hostLabelMissing l ∧ labelPositions l 0 s.host.program = []) ∨
      (f = .hostLabelAmbiguous l ∧ 2 ≤ (labelPositions l 0 s.host.program).length) := by
  unfold hostBranch hostJump at h
  split at h
  · rename_i hv; cases h; exact .inl ⟨rfl, hv⟩
  · split at h
    · split at h
      · rename_i hl; cases h; exact .inr (.inl ⟨rfl, hl⟩)
      · cases h
      · rename_i hl; cases h; exact .inr (.inr ⟨rfl, by simp [hl]⟩)
    · cases h

theorem hostBranch_refused {z : Bool} {v : Nat} {mask : Word} {l : Nat} {s : State} {r : Refusal} :
    hostBranch z v mask l s ≠ .refused r := by
  intro h
  unfold hostBranch hostJump at h
  repeat' split at h
  all_goals cases h

theorem hostTurn_ended {s : State} (h : s.hostStmt? = none) : hostTurn s = .next s := by
  simp [hostTurn, h]

theorem hostTurn_released {s : State} {stmt : HostStmt} (h : s.hostStmt? = some stmt) (hr : s.rstN = true) :
    hostTurn s = runStmt stmt s := by
  simp [hostTurn, h, hr]

theorem hostTurn_held {s : State} {stmt : HostStmt} (h : s.hostStmt? = some stmt) (hr : s.rstN = false) :
    hostTurn s = heldStmt stmt s := by
  simp [hostTurn, h, hr]

/-- If the host's turn answers a next state, it is one of these. -/
theorem hostTurn_cases {s t : State} (h : hostTurn s = .next t) :
    (∃ a d, s.hostStmt? = some (.wr a d) ∧ s.rstN = true ∧ t = (busWrite a d s).advanceHost) ∨
    (∃ a v, s.hostStmt? = some (.rd a v) ∧ s.rstN = true ∧ t = (s.assign v (busRead s a)).advanceHost) ∨
    ((∀ a d, s.hostStmt? ≠ some (.wr a d)) ∧ (∀ a v, s.hostStmt? ≠ some (.rd a v)) ∧
      ∃ k, t = s.jumpHost k) := by
  cases hs : s.hostStmt? with
  | none =>
    rw [hostTurn_ended hs] at h
    cases h
    exact .inr (.inr ⟨by simp, by simp, s.host.position, rfl⟩)
  | some stmt =>
    cases hr : s.rstN with
    | true =>
      rw [hostTurn_released hs hr] at h
      cases stmt with
      | wr a d => cases h; exact .inl ⟨a, d, rfl, rfl, rfl⟩
      | rd a v => cases h; exact .inr (.inl ⟨a, v, rfl, rfl, rfl⟩)
      | label l => cases h; exact .inr (.inr ⟨by simp, by simp, s.host.position + 1, rfl⟩)
      | bnz v mask l => exact .inr (.inr ⟨by simp, by simp, hostBranch_next h⟩)
      | bz v mask l => exact .inr (.inr ⟨by simp, by simp, hostBranch_next h⟩)
    | false =>
      rw [hostTurn_held hs hr] at h
      cases stmt <;> cases h <;> exact .inr (.inr ⟨by simp, by simp, s.host.position, rfl⟩)

/-- Everything a step that answers a next state can be, by the agent that moved. -/
theorem step_cases {s t : State} (h : step s = .next t) :
    (s.nextTurn = .assertReset ∧ t = assertReset s.dropTurn) ∨
    (s.nextTurn = .releaseReset ∧ s.rstN = true ∧ t = s.dropTurn) ∨
    (s.nextTurn = .releaseReset ∧ s.rstN = false ∧ t = { resetRegs s.dropTurn with rstN := true }) ∨
    (s.nextTurn = .engine ∧ s.rstN = false ∧ t = resetRegs s.dropTurn) ∨
    (s.nextTurn = .engine ∧ s.rstN = true ∧ s.phase = .idle ∧ t = s.dropTurn) ∨
    (∃ c, s.Completes c ∧ t = complete (outcome 1024 c s.opa.toNat s.opb.toNat s.mod.toNat) s.dropTurn) ∨
    (∃ a d, s.Writes a d ∧ t = (busWrite a d s.dropTurn).advanceHost) ∨
    (∃ a v, s.Runs (.rd a v) ∧ s.rstN = true ∧ t = (s.dropTurn.assign v (busRead s a)).advanceHost) ∨
    (s.nextTurn = .host ∧ (∀ a d, s.hostStmt? ≠ some (.wr a d)) ∧ (∀ a v, s.hostStmt? ≠ some (.rd a v)) ∧
      ∃ k, t = s.dropTurn.jumpHost k) := by
  cases ht : s.nextTurn with
  | assertReset => rw [step_assertReset ht] at h; cases h; exact .inl ⟨rfl, rfl⟩
  | releaseReset =>
    rw [step_releaseReset ht] at h
    cases h
    cases hr : s.rstN with
    | true => exact .inr (.inl ⟨rfl, rfl, by simp [releaseReset, hr]⟩)
    | false => exact .inr (.inr (.inl ⟨rfl, rfl, by simp [releaseReset, hr]⟩))
  | engine =>
    rw [step_engine ht] at h
    rcases engineTurn_cases s.dropTurn with ⟨hr, he⟩ | ⟨hr, hp, he⟩ | ⟨c, hr, hp, he⟩ <;> rw [he] at h <;> cases h
    · exact .inr (.inr (.inr (.inl ⟨rfl, hr, rfl⟩)))
    · exact .inr (.inr (.inr (.inr (.inl ⟨rfl, hr, hp, rfl⟩))))
    · exact .inr (.inr (.inr (.inr (.inr (.inl ⟨c, ⟨ht, hr, hp⟩, rfl⟩)))))
  | host =>
    rw [step_host ht] at h
    rcases hostTurn_cases h with ⟨a, d, hs, hr, rfl⟩ | ⟨a, v, hs, hr, rfl⟩ | ⟨h1, h2, k, rfl⟩
    · exact .inr (.inr (.inr (.inr (.inr (.inr (.inl ⟨a, d, ⟨⟨ht, hs⟩, hr⟩, rfl⟩))))))
    · exact .inr (.inr (.inr (.inr (.inr (.inr (.inr (.inl ⟨a, v, ⟨ht, hs⟩, hr, rfl⟩)))))))
    · exact .inr (.inr (.inr (.inr (.inr (.inr (.inr (.inr ⟨rfl, h1, h2, k, rfl⟩)))))))

/-! ### Runs -/

@[simp] theorem runFor_zero (s : State) : runFor 0 s = .next s := rfl

theorem runFor_succ_next {s u : State} (h : step s = .next u) (k : Nat) : runFor (k + 1) s = runFor k u := by
  simp [runFor, h]

/-- A run that answers a next state took its first step to a next state. -/
theorem runFor_succ_inv {s t : State} {k : Nat} (h : runFor (k + 1) s = .next t) :
    ∃ u, step s = .next u ∧ runFor k u = .next t := by
  unfold runFor at h
  split at h
  · rename_i u hu; exact ⟨u, hu, h⟩
  · cases h
  · cases h

theorem runFor_add {s u : State} {j : Nat} (h : runFor j s = .next u) (k : Nat) : runFor (j + k) s = runFor k u := by
  induction j generalizing s with
  | zero => cases h; rw [Nat.zero_add]
  | succ j ih =>
    obtain ⟨v, hv, hr⟩ := runFor_succ_inv h
    rw [Nat.add_right_comm, runFor_succ_next hv]
    exact ih hr

/-- What every step keeps, every run keeps. -/
theorem runFor_keeps {P : State → Prop} (hstep : ∀ s t, P s → step s = .next t → P t) {k : Nat} {s t : State}
    (hs : P s) (h : runFor k s = .next t) : P t := by
  induction k generalizing s with
  | zero => cases h; exact hs
  | succ k ih =>
    obtain ⟨u, hu, hr⟩ := runFor_succ_inv h
    exact ih (hstep s u hs hu) hr

end Sys2Proof.Machine
end

