-- ==== Sys2Proof/Tests/Slice0.lean ====
section
/-! SUPPORT. Tests. Expected values come from spec/: the encodings of 30_encoding.md, the vectors of
95_test_vectors.md (M, T, X, I, K, V) and its program P6. A `test_witness_…` theorem shows a state and operands that meet
the hypotheses of the statement it names in Certificates/Slice0/Obligations.lean, each clause at a boundary. -/

open Sys2Proof Sys2Proof.Machine

namespace Sys2Proof.Tests

-- One theorem at a time: each waits for the kernel, and too many waiting threads exhaust the checker's memory limit.
set_option Elab.async false

/-- The reset state with the three operand registers loaded. -/
def loaded (a b m : Nat) : State :=
  { State.reset with opa := BitVec.ofNat 1024 a, opb := BitVec.ofNat 1024 b, mod := BitVec.ofNat 1024 m }

/-- The same, with the command word `c` in execution. -/
def running (c : Word) (a b m : Nat) : State := { loaded a b m with phase := .busy c }

/-- A state with a host program placed at its first statement, and an order of turns. -/
def hosting (program : List HostStmt) (turns : List Turn) (s : State) : State :=
  { s with host := { program := program, position := 0, vars := [] }, schedule := turns }

/-- The same state with its reset input low. -/
def held (s : State) : State := { s with rstN := false }

/-- RES and the word STATUS reads as, after one step. -/
def afterStep (s : State) : Option (Nat × Nat) :=
  match step s with
  | .next t => some (t.res.toNat, (busRead t 0x00C).toNat)
  | _ => none

/-- The largest operand, `M` of 95_test_vectors.md. -/
def maxOperand : Nat := 2 ^ 1024 - 1

/-! ### Decoding: words written out from 30_encoding.md R53 and R55 -/

/-- RSV (28 zeros) and OP, bit by bit, for the four commands. -/
theorem test_decode_commands :
    decode 0b0000_0000_0000_0000_0000_0000_0000_0001 = .command .modmul ∧
    decode 0b0000_0000_0000_0000_0000_0000_0000_0010 = .command .montmul ∧
    decode 0b0000_0000_0000_0000_0000_0000_0000_0011 = .command .modexp ∧
    decode 0b0000_0000_0000_0000_0000_0000_0000_0100 = .command .modinv := by decide

/-- K1 to K7. -/
theorem test_decode_illegal :
    decode 0x00000000 = .illegal .opZero ∧ decode 0x00000005 = .illegal .opReserved ∧
    decode 0x0000000F = .illegal .opReserved ∧ decode 0x00000011 = .illegal .rsvNotZero ∧
    decode 0x80000003 = .illegal .rsvNotZero ∧ decode 0xFFFFFFFF = .illegal .opReserved ∧
    decode 0x00000104 = .illegal .rsvNotZero := by decide

theorem test_encode :
    encode .modmul = 0x00000001 ∧ encode .montmul = 0x00000002 ∧
    encode .modexp = 0x00000003 ∧ encode .modinv = 0x00000004 := by decide

theorem test_decodeTableWord :
    decodeTableWord 32 1 = some .modmul ∧ decodeTableWord 32 2 = some .montmul ∧
    decodeTableWord 32 3 = some .modexp ∧ decodeTableWord 32 4 = some .modinv ∧
    decodeTableWord 32 0x11 = none := by decide

/-! ### Well-formedness: one ill-formed term for each check -/

theorem test_wellFormed_commandWord :
    commandWordWellFormed 0x00000004 = true ∧ commandWordWellFormed 0x00000000 = false ∧
    commandWordWellFormed 0x00000005 = false ∧ commandWordWellFormed 0x00000011 = false := by decide

theorem test_wellFormed_program :
    programWellFormed [.label 1, .rd 0x00C 0, .bz 0 0x2 1] = true ∧
    programWellFormed [.rd 0x00C 0, .bz 0 0x2 1] = false ∧
    programWellFormed [.label 1, .label 1, .bnz 0 0x2 1] = false := by decide

theorem test_wellFormed_pseudo :
    (Pseudo.ld .opa maxOperand).wellFormed = true ∧ (Pseudo.ld .opa (maxOperand + 1)).wellFormed = false ∧
    (Pseudo.ldlo .opb (maxOperand + 1)).wellFormed = false ∧ (Pseudo.getlo 32 0).wellFormed = true ∧
    (Pseudo.getlo 33 0).wellFormed = false := by decide +kernel

/-- 00_scope.md R5: the width this hardware takes is legal; 0, 48 and 2080 are not. -/
theorem test_legalWidth :
    Config.LegalWidth Config.operandWidth ∧ ¬Config.LegalWidth 0 ∧ ¬Config.LegalWidth 48 ∧
    ¬Config.LegalWidth 2080 := by decide

/-! ### The commands, each completed by one step of the engine -/

/-- M1, M8 (code 1, RES unchanged). -/
theorem test_modmul :
    afterStep (running 1 7 5 11) = some (2, 0x002) ∧ afterStep (running 1 3 4 0) = some (0, 0x106) := by
  decide +kernel

/-- M12: operands above the modulus, and a product of 2048 bits. -/
theorem test_modmul_wide :
    afterStep (running 1 maxOperand maxOperand (2 ^ 1023 + 1)) = some (9, 0x002) := by decide +kernel

/-- T1, T8, T10 (code 1, not 3), T11 (code 3). -/
theorem test_montmul :
    afterStep (running 2 3 5 7) = some (4, 0x002) ∧ afterStep (running 2 5 1 1000003) = some (486306, 0x002) ∧
    afterStep (running 2 3 5 0) = some (0, 0x106) ∧ afterStep (running 2 3 5 10) = some (0, 0x306) := by
  decide +kernel

/-- 95_test_vectors.md section 2.2: the values at `W = 32`. -/
theorem test_montmul_width32 :
    montmulOutcome 32 3 5 7 = .ok 2 ∧ montmulOutcome 32 1 1 11 = .ok 3 ∧ montmulOutcome 32 4 5 1 = .ok 0 := by
  decide +kernel

/-- X1, X4, X5, X8. -/
theorem test_modexp :
    afterStep (running 3 2 10 1000) = some (24, 0x002) ∧ afterStep (running 3 0 0 7) = some (1, 0x002) ∧
    afterStep (running 3 9 0 1) = some (0, 0x002) ∧ afterStep (running 3 3 0 0) = some (0, 0x106) := by
  decide +kernel

/-- X16: the full-width exponent. -/
theorem test_modexp_wide :
    afterStep (running 3 2 maxOperand (2 ^ 1023 + 1)) = some (32768, 0x002) := by decide +kernel

/-- I1, I6, I10 (code 1 wins over 2), I12. -/
theorem test_modinv :
    afterStep (running 4 3 0 7) = some (5, 0x002) ∧ afterStep (running 4 4 0 8) = some (0, 0x206) ∧
    afterStep (running 4 0 0 0) = some (0, 0x106) ∧ afterStep (running 4 5 0 1) = some (0, 0x002) := by
  decide +kernel

/-- I13, I14. -/
theorem test_modinv_wide :
    afterStep (running 4 2 0 maxOperand) = some (2 ^ 1023, 0x002) ∧
    afterStep (running 4 (maxOperand - 1) 0 maxOperand) = some (maxOperand - 1, 0x002) := by decide +kernel

/-- K4: an illegal word completes with code 4, whatever the modulus. -/
theorem test_illegal_word : afterStep (running 0x11 7 5 0) = some (0, 0x406) := by decide +kernel

/-- The word placed by `withFetchWord` after reset runs at the very next step: MOD is 0, so it reports code 1. -/
theorem test_withFetchWord :
    afterStep (State.reset.withFetchWord 32 3) = some (0, 0x106) ∧
    afterStep (State.reset.withFetchWord 32 0) = some (0, 0x406) := by decide +kernel

/-! ### The register interface -/

/-- V1, V2. -/
theorem test_reset_reads :
    busRead State.reset 0x000 = 0x4D4D0001 ∧ busRead State.reset 0x004 = 0x00000400 ∧
    busRead State.reset 0x008 = 0 ∧ busRead State.reset 0x00C = 0 ∧ busRead State.reset 0x010 = 0 ∧
    busRead State.reset 0x0FC = 0 ∧ busRead State.reset 0xFFC = 0 := by decide +kernel

/-- V4. -/
theorem test_ctrl_write : busRead (busWrite 0x008 0xFFFFFFFD State.reset) 0x008 = 1 := by decide +kernel

/-- V5. -/
theorem test_unaligned_write :
    busRead (busWrite 0x10F 0xAABBCCDD State.reset) 0x10C = 0xAABBCCDD ∧
    busRead (busWrite 0x10F 0xAABBCCDD State.reset) 0x100 = 0 := by decide +kernel

/-- V6, V7. -/
theorem test_ignored_writes :
    busWrite 0x180 5 State.reset = State.reset ∧ busWrite 0x400 7 State.reset = State.reset := by decide +kernel

/-- V10: three colliding writes change only COLL. -/
theorem test_collision :
    busWrite 0x3FC 1 (busWrite 0x010 1 (busWrite 0x100 9 (running 3 0 0 0))) =
      { running 3 0 0 0 with coll := true } ∧
    busRead { running 3 0 0 0 with coll := true } 0x00C = 0x00000009 := by decide +kernel

/-- V12: each clear bit clears one flag, and ERRCODE stays. -/
theorem test_status_write :
    busRead (busWrite 0x00C 8 { State.reset with done := true, coll := true, errcode := 1 }) 0x00C = 0x00000106 ∧
    busRead (busWrite 0x00C 2 { State.reset with done := true, errcode := 1 }) 0x00C = 0x00000104 := by
  decide +kernel

/-- V18: a soft reset while busy. -/
theorem test_soft_reset : busWrite 0x008 3 { running 3 5 0 7 with ie := true } = State.reset := by decide +kernel

/-- P6: the racy write, in both orders; OPA is 6 with COLL, or 9 without; RES is 2 in both. -/
theorem test_race :
    (match runFor 2 (hosting [.wr 0x100 9] [.host, .engine] (running 1 6 7 10)) with
      | .next t => some (t.opa.toNat, t.res.toNat, (busRead t 0x00C).toNat) | _ => none) = some (6, 2, 0xA) ∧
    (match runFor 2 (hosting [.wr 0x100 9] [.engine, .host] (running 1 6 7 10)) with
      | .next t => some (t.opa.toNat, t.res.toNat, (busRead t 0x00C).toNat) | _ => none) = some (9, 2, 0x2) := by
  decide +kernel

/-- R95: a transaction during reset. -/
theorem test_transaction_in_reset :
    step (hosting [.rd 0x00C 0] [.host] (held State.reset)) = .refused (.transactionDuringReset 0x00C) := rfl

/-! ### Witnesses: one step -/

theorem test_witness_StepRunsDecodedCommand :
    (running 1 7 5 11).Completes 1 ∧ decode 1 = .command .modmul ∧
    (running 5 7 5 11).Completes 5 ∧ decode 5 = .illegal .opReserved :=
  ⟨⟨rfl, rfl, rfl⟩, by decide, ⟨rfl, rfl, rfl⟩, by decide⟩

theorem test_witness_FetchedWordRunsNext : decodeTableWord 32 4 = some .modinv := by decide

theorem test_witness_HostStatementsRun :
    (∀ st ∈ [HostStmt.wr 0x100 1, .rd 0x00C 0, .label 1],
      (hosting [st] [] State.reset).nextTurn = .host ∧ (hosting [st] [] State.reset).hostStmt? = some st ∧
        (hosting [st] [] State.reset).rstN = true) ∧
    (hosting [] [.host] State.reset).nextTurn = .host ∧ (hosting [] [.host] State.reset).hostStmt? = none := by
  decide +kernel

/-- A branch whose variable is assigned and whose label is declared once, on a value that jumps and one that does not. -/
def branching (stmt : HostStmt) (d : Word) : State :=
  { State.reset with host := { program := [stmt, .label 4], position := 0, vars := [(0, d)] } }

theorem test_witness_HostStatementsRun_branches :
    [(HostStmt.bnz 0 2 4, (0 : Word)), (.bnz 0 2 4, 2), (.bz 0 2 4, 0), (.bz 0 2 4, 2)].all (fun p =>
      let s := branching p.1 p.2
      decide (s.nextTurn = .host ∧ s.hostStmt? = some p.1 ∧ s.rstN = true ∧ lookupVar 0 s.host.vars = some p.2 ∧
        labelPositions 4 0 s.host.program = [1])) = true := by decide +kernel

theorem test_witness_StepStopsOnlyAsListed :
    (State.reset.rstN = true ∧ HostReady State.reset) ∧
    step (hosting [.wr 0x100 1] [.host] (held State.reset)) = .refused (.transactionDuringReset 0x100) ∧
    step (hosting [.bz 0 2 4] [] State.reset) = .fault (.hostVarUnset 0) ∧
    step { branching (.bz 0 2 5) 0 with schedule := [] } = .fault (.hostLabelMissing 5) ∧
    step { State.reset with host := ⟨[.bz 0 2 4, .label 4, .label 4], 0, [(0, 0)]⟩ } =
      .fault (.hostLabelAmbiguous 4) :=
  ⟨⟨rfl, trivial⟩, rfl, rfl, rfl, rfl⟩

/-! ### Witnesses: the commands -/

theorem test_witness_ModmulResult :
    (loaded 3 4 0).mod.toNat = 0 ∧ (loaded 9 9 1).mod.toNat ≠ 0 ∧ (loaded 2 2 maxOperand).mod.toNat ≠ 0 := by
  decide +kernel

theorem test_witness_MontmulResult :
    (loaded 3 5 0).mod.toNat = 0 ∧ ((loaded 3 5 2).mod.toNat ≠ 0 ∧ (loaded 3 5 2).mod.toNat % 2 = 0) ∧
    (loaded 4 5 1).mod.toNat % 2 = 1 ∧ (loaded 4 5 maxOperand).mod.toNat % 2 = 1 := by decide +kernel

theorem test_witness_ModexpResult :
    (loaded 3 0 0).mod.toNat = 0 ∧ (loaded 3 0 1).mod.toNat ≠ 0 := by decide +kernel

theorem test_witness_ModinvResult :
    (loaded 7 0 0).mod.toNat = 0 ∧
    ((loaded 0 0 2).mod.toNat ≠ 0 ∧ Nat.gcd (loaded 0 0 2).opa.toNat (loaded 0 0 2).mod.toNat ≠ 1) ∧
    ((loaded 0 0 1).mod.toNat ≠ 0 ∧ Nat.gcd (loaded 0 0 1).opa.toNat (loaded 0 0 1).mod.toNat = 1) := by
  decide +kernel

theorem test_witness_IllegalWordsCompleteWithCode4 :
    (∀ i : Instr, (5 : Word) ≠ encode i) ∧ (loaded 1 2 3).phase = .idle ∧ (running 5 1 2 3).Completes 5 :=
  ⟨by intro i; cases i <;> decide, rfl, rfl, rfl, rfl⟩

theorem test_witness_CompletionTakesOutcome : (running 0xFFFFFFFF 1 2 3).Completes 0xFFFFFFFF := ⟨rfl, rfl, rfl⟩

theorem test_witness_ErrorCodePrecedence :
    (running 0 0 0 0).Completes 0 ∧ (running 2 1 1 0).Completes 2 ∧ (running 2 1 1 2).Completes 2 ∧
    (running 4 0 0 2).Completes 4 ∧ (running 4 1 0 2).Completes 4 :=
  ⟨⟨rfl, rfl, rfl⟩, ⟨rfl, rfl, rfl⟩, ⟨rfl, rfl, rfl⟩, ⟨rfl, rfl, rfl⟩, ⟨rfl, rfl, rfl⟩⟩

/-- Two states with other RES, COLL and IE, and for MODINV another OPB too. -/
theorem test_witness_OutcomeReadsOnlyOperands :
    (∃ s' t', exec .modmul (loaded 7 5 11) = .next s' ∧
      exec .modmul { loaded 7 5 11 with res := 9, coll := true, ie := true } = .next t') ∧
    (∃ s' t', exec .modinv (loaded 3 5 7) = .next s' ∧ exec .modinv (loaded 3 6 7) = .next t') :=
  ⟨⟨_, _, rfl, rfl⟩, ⟨_, _, rfl, rfl⟩⟩

/-- An erroring completion, for CommandFrame's last clause. -/
theorem test_witness_CommandFrame : ∃ t, exec .modinv (loaded 4 0 8) = .next t ∧ t.errcode ≠ 0 :=
  ⟨_, rfl, by decide +kernel⟩

theorem test_witness_ResultsBelowModulus :
    ∃ t, exec .modmul (loaded 7 5 11) = .next t ∧ t.errcode = 0 ∧ (loaded 7 5 11).mod.toNat < 2 ^ (32 * 1) :=
  ⟨_, rfl, by decide +kernel⟩

/-- MODEXP completes from each, with a modulus that is not 0; exponent 0, modulus 1, base 0, full-width exponent. -/
theorem test_witness_ModexpCorners :
    (∃ t, exec .modexp (loaded 5 0 7) = .next t) ∧ (loaded 5 0 7).mod ≠ 0 ∧ (loaded 5 0 7).opb = 0 ∧
    (∃ t, exec .modexp (loaded 9 5 1) = .next t) ∧ (loaded 9 5 1).mod = 1 ∧
    (∃ t, exec .modexp (loaded 0 5 7) = .next t) ∧ (loaded 0 5 7).opa = 0 ∧ (loaded 0 5 7).opb ≠ 0 ∧
    (∃ t, exec .modexp (loaded 3 maxOperand 2) = .next t) ∧ (loaded 3 maxOperand 2).opb = BitVec.allOnes 1024 :=
  ⟨⟨_, rfl⟩, by decide +kernel, by decide +kernel, ⟨_, rfl⟩, by decide +kernel, ⟨_, rfl⟩, by decide +kernel,
    by decide +kernel, ⟨_, rfl⟩, by decide +kernel⟩

theorem test_witness_ModexpLaws :
    (1 ≤ 7) ∧ modexpOutcome 3 2 7 = .ok 2 ∧ modexpOutcome 3 0 7 = .ok 1 ∧ modexpOutcome 3 0 1 = .ok 0 := by
  decide +kernel

/-- `2^32 * 2 mod 7 = 1`, and a product of two values in Montgomery form. -/
theorem test_witness_MontgomeryDomainLaws :
    7 % 2 = 1 ∧ 1 % 2 = 1 ∧ 2 ^ 32 * 2 % 7 = 1 % 7 ∧
    montmulOutcome 32 (3 * 2 ^ 32 % 7) (5 * 2 ^ 32 % 7) 7 = .ok 4 := by decide +kernel

theorem test_witness_arithmetic_moduli :
    (1 : Nat) ≤ 1 ∧ Nat.gcd 0 1 = 1 ∧ Nat.gcd 3 7 = 1 ∧ bitlen 0 ≤ 0 ∧ 2 * bitlen 7 ≤ 6 := by decide +kernel

theorem test_witness_ModulusOneInverse : (loaded 5 0 1).mod = 1 := by decide +kernel

/-! ### Witnesses: the register interface -/

theorem test_witness_OperandWriteReplacesOneWord :
    Reg.opa ≠ .res ∧ (0 : Nat) < 32 ∧ (31 : Nat) < 32 ∧ (loaded 1 2 3).phase = .idle ∧
    (running 1 1 2 3).phase = .busy 1 := by decide +kernel

theorem test_witness_CollisionChangesOnlyColl :
    (running 1 1 2 3).phase = .busy 1 ∧ offset 0x010 = 0x010 ∧ offset 0x100 = 0x100 ∧ offset 0x3FF = 0x3FC ∧
    offset 0x008 = 0x008 ∧ offset 0x00C = 0x00C ∧ offset 0x000 = 0x000 ∧ offset 0x004 = 0x004 ∧
    offset 0x014 = 0x014 ∧ offset 0x0FF = 0x0FC ∧ offset 0x400 = 0x400 ∧ offset 0xFFF = 0xFFC := by decide +kernel

/-- For AcceptanceRule, CmdRegister and UnimplementedWindowWords: a state in each phase, and words 32 and 63. -/
theorem test_witness_phases :
    (loaded 1 2 3).phase = .idle ∧ (running 9 1 2 3).phase = .busy 9 ∧ (32 : Nat) ≤ 32 ∧ (63 : Nat) < 64 ∧
    Reg.mod ≠ .res := by decide +kernel

theorem test_witness_CtrlRegister :
    (0xFFFFFFFD : Word).getLsbD 1 = false ∧ (2 : Word).getLsbD 1 = true ∧
    (busWrite 0x008 0 { State.reset with coll := true }).coll = true := by decide +kernel

/-- A soft reset of a busy block whose schedule then gives the engine a turn. -/
theorem test_witness_SoftResetEqualsHardReset :
    (3 : Word).getLsbD 1 = true ∧
    (hosting [.wr 0x008 3] [.host, .engine] (running 3 5 0 7)).Writes 0x008 3 ∧
    ∃ t, step (hosting [.wr 0x008 3] [.host, .engine] (running 3 5 0 7)) = .next t ∧ t.rstN = true ∧
      t.nextTurn = .engine :=
  ⟨by decide, ⟨⟨rfl, rfl⟩, rfl⟩, _, rfl, by decide +kernel⟩

theorem test_witness_ReservedOffsetsAreInert :
    (0x014 ≤ (0x014 : Addr).toNat ∧ (0x014 : Addr).toNat ≤ 0x0FF) ∧
    (0x014 ≤ (0x0FF : Addr).toNat ∧ (0x0FF : Addr).toNat ≤ 0x0FF) ∧
    (0x500 ≤ (0x500 : Addr).toNat ∧ (0x500 : Addr).toNat ≤ 0xFFF) ∧
    (0x500 ≤ (0xFFF : Addr).toNat ∧ (0xFFF : Addr).toNat ≤ 0xFFF) := by decide

theorem test_witness_ResWindowIsReadOnly :
    (0 : Nat) < 32 ∧ (31 : Nat) < 32 ∧ 0x400 ≤ (0x400 : Addr).toNat ∧ (0x400 : Addr).toNat < 0x500 ∧
    0x400 ≤ (0x4FF : Addr).toNat ∧ (0x4FF : Addr).toNat < 0x500 := by decide

/-! ### Witnesses: reset, flags and the interrupt -/

theorem test_witness_HardResetHolds :
    { running 3 5 0 7 with schedule := [.assertReset] }.nextTurn = .assertReset ∧
    ((held State.reset).rstN = false ∧ AtResetValues (held State.reset) ∧ ∃ t, step (held State.reset) = .next t) ∧
    ({ held State.reset with schedule := [.releaseReset] }.nextTurn = .releaseReset ∧
      { held State.reset with schedule := [.releaseReset] }.rstN = false) :=
  ⟨rfl, ⟨rfl, ⟨rfl, rfl, rfl, rfl, rfl, rfl, rfl, rfl, rfl⟩, _, rfl⟩, rfl, rfl⟩

theorem test_witness_TransactionsDuringResetRefused :
    (held State.reset).rstN = false ∧
    (hosting [.wr 0x100 1] [.host] (held State.reset)).Runs (.wr 0x100 1) ∧
    (hosting [.rd 0x100 1] [.host] (held State.reset)).Runs (.rd 0x100 1) ∧
    ((hosting [.label 1] [.host] (held State.reset)).nextTurn = .host ∧
      (hosting [.label 1] [.host] (held State.reset)).hostStmt? = some (.label 1)) :=
  ⟨rfl, ⟨rfl, rfl⟩, ⟨rfl, rfl⟩, rfl, rfl⟩

/-- For InvariantKeptByStep: a busy state that meets the invariant, and its completion. -/
theorem test_witness_InvariantKeptByStep :
    MachineInv (running 1 7 5 11) ∧ ∃ t, step (running 1 7 5 11) = .next t :=
  ⟨⟨by unfold StatusInv; decide +kernel, fun h => absurd h (by decide), by decide +kernel⟩, _, rfl⟩

theorem test_witness_StatusReadsInEveryRun :
    ∃ t, runFor 1 { State.reset with host := ⟨[.wr 0x010 1], 0, []⟩, schedule := [] } = .next t ∧
      (busRead t 0x00C).getLsbD 0 = true :=
  ⟨_, rfl, by decide +kernel⟩

/-- COLL rises at a collision at either end of the guarded range. -/
theorem test_witness_CollIsSticky_rise :
    [(0x010 : Addr), 0x100, 0x3FF].all (fun a =>
      match step (hosting [.wr a 1] [.host] (running 1 7 5 11)) with | .next t => t.coll | _ => false) = true := by
  decide +kernel

theorem test_witness_CollIsSticky_collides :
    (hosting [.wr 0x3FF 1] [.host] (running 1 7 5 11)).Collides :=
  ⟨0x3FF, 1, ⟨⟨rfl, rfl⟩, rfl⟩, rfl, .inr (by decide +kernel)⟩

/-- COLL falls at a STATUS write of bit 3 and at both resets. -/
theorem test_witness_CollIsSticky_fall :
    [hosting [.wr 0x00C 8] [.host] { State.reset with coll := true },
        hosting [.wr 0x008 2] [.host] { State.reset with coll := true },
        { State.reset with coll := true, schedule := [.assertReset] }].all (fun s =>
      s.coll && match step s with | .next t => !t.coll | _ => false) = true := by decide +kernel

/-- `irq` rises at a completion with IE set, and at a CTRL write that sets IE while DONE is 1. -/
theorem test_witness_Irq_rise :
    ∀ s ∈ [{ running 1 7 5 11 with ie := true }, hosting [.wr 0x008 1] [.host] { State.reset with done := true }],
      s.irq = false ∧ (match step s with | .next t => t.irq | _ => false) = true := by decide +kernel

/-- `irq` falls at a STATUS write of bit 1, an acceptance, a CTRL write that clears IE, and both resets. -/
theorem test_witness_Irq_fall :
    ∀ s ∈ [hosting [.wr 0x00C 2] [.host] { State.reset with ie := true, done := true },
        hosting [.wr 0x010 1] [.host] { State.reset with ie := true, done := true },
        hosting [.wr 0x008 0] [.host] { State.reset with ie := true, done := true },
        hosting [.wr 0x008 3] [.host] { State.reset with ie := true, done := true },
        { State.reset with ie := true, done := true, schedule := [.assertReset] }],
      s.irq = true ∧ (match step s with | .next t => !t.irq | _ => false) = true := by decide +kernel

/-- For DoneIsSetAndCleared, BusyIsSetAndCleared and ErrcodePersists: a completion, an acceptance, a soft reset and a
hardware reset, each from a state in which the flag it clears is set. -/
theorem test_witness_flag_events :
    (running 4 4 0 8).Completes 4 ∧
    (hosting [.wr 0x010 1] [.host] { State.reset with done := true, errcode := 2 }).Writes 0x010 1 ∧
    (hosting [.wr 0x008 2] [.host] (running 1 7 5 11)).SoftResets ∧
    { running 1 7 5 11 with schedule := [.assertReset] }.HardResets ∧
    { held State.reset with schedule := [.releaseReset] }.HardResets :=
  ⟨⟨rfl, rfl, rfl⟩, ⟨⟨rfl, rfl⟩, rfl⟩, ⟨0x008, 2, ⟨⟨rfl, rfl⟩, rfl⟩, by decide +kernel⟩, .inl rfl,
    .inr ⟨rfl, .inr rfl⟩⟩

/-- The events of DONE, BUSY and ERRCODE change what they should: (DONE, BUSY, ERRCODE) after each step. -/
theorem test_flag_events :
    [running 4 4 0 8, hosting [.wr 0x010 1] [.host] { State.reset with done := true, errcode := 2 },
      hosting [.wr 0x00C 2] [.host] { State.reset with done := true, errcode := 2 },
      hosting [.wr 0x008 2] [.host] (running 1 7 5 11)].map
      (fun s => match step s with | .next t => some (t.done, t.busy, t.errcode) | _ => none) =
    [some (true, false, 2), some (false, true, 0), some (false, false, 2), some (false, false, 0)] := by
  decide +kernel

/-- RES changed by a completion, and OPA, OPB and MOD by the first and last word of their windows, with no reset. -/
theorem test_witness_RegistersChangeOnlyAsListed :
    (match step (running 1 7 5 11) with | .next t => t.res | _ => 0) ≠ (running 1 7 5 11).res ∧
    ¬(running 1 7 5 11).Resets ∧
    [(0x100 : Addr), 0x17F, 0x200, 0x27F, 0x300, 0x37F].all (fun a =>
      match step (hosting [.wr a 9] [.host] State.reset) with
        | .next t => (t.opa, t.opb, t.mod) != (0, 0, 0) | _ => false) = true := by
  refine ⟨by decide +kernel, ?_, by decide +kernel⟩
  rintro (⟨a, d, hw, -⟩ | h | ⟨h, -⟩)
  · exact absurd hw.1.1 (by decide +kernel)
  · exact absurd h (by decide +kernel)
  · exact absurd h (by decide)

/-! ### Witnesses: the life of a command, and host programs -/

/-- A read of RES while the command executes; then the completion. -/
theorem test_witness_CompletionUsesAcceptedOperands :
    (hosting [.rd 0x400 0] [.host, .engine] (running 1 6 7 10)).phase = .busy 1 ∧
    (hosting [.rd 0x400 0] [.host, .engine] (running 1 6 7 10)).rstN = true ∧
    (∀ j u, j ≤ 1 → runFor j (hosting [.rd 0x400 0] [.host, .engine] (running 1 6 7 10)) = .next u →
      u.busy = true) ∧
    ∃ t, runFor 1 (hosting [.rd 0x400 0] [.host, .engine] (running 1 6 7 10)) = .next t ∧ t.nextTurn = .engine := by
  refine ⟨rfl, rfl, fun j u hj h => ?_, _, rfl, rfl⟩
  match j, hj, h with
  | 0, _, h => exact (Host.Outcome.next.inj h) ▸ rfl
  | 1, _, h => exact (Host.Outcome.next.inj h) ▸ rfl

theorem test_witness_BusyBlockCompletesUnlessHostStopsIt :
    (hosting [] [.host, .engine] (running 1 6 7 10)).phase = .busy 1 ∧
    (hosting [] [.host, .engine] (running 1 6 7 10)).rstN = true ∧
    NoResetTurns (hosting [] [.host, .engine] (running 1 6 7 10)) ∧
    NoResetTurns (hosting [] [] (running 1 6 7 10)) :=
  ⟨rfl, rfl, by unfold NoResetTurns; decide +kernel, by unfold NoResetTurns; decide +kernel⟩

/-- The two other ends of a command, met by the host's own program with no turn of `rst_n`: a soft reset (R96), after
which the block is idle and nothing has completed, and a fault (log 5). -/
theorem test_witness_BusyBlockCompletesUnlessHostStopsIt_ends :
    (hosting [.wr 0x008 2] [.host] (running 1 6 7 10)).SoftResets ∧
    NoResetTurns (hosting [.wr 0x008 2] [.host] (running 1 6 7 10)) ∧
    step (hosting [.bz 0 2 4] [.host] (running 1 6 7 10)) = .fault (.hostVarUnset 0) ∧
    NoResetTurns (hosting [.bz 0 2 4] [.host] (running 1 6 7 10)) :=
  ⟨⟨0x008, 2, ⟨⟨rfl, rfl⟩, rfl⟩, by decide +kernel⟩, by unfold NoResetTurns; decide +kernel, rfl,
    by unfold NoResetTurns; decide +kernel⟩

theorem test_witness_WaitDoneLoopEnds :
    let s := hosting (Pseudo.expand (.waitDone 0 1)) [.host, .host, .host] (running 1 6 7 10)
    s.phase = .busy 1 ∧ s.done = false ∧ s.rstN = true ∧ NoResetTurns s ∧
      ProgramAhead s (Pseudo.expand (.waitDone 0 1)) ∧ labelPositions 1 0 s.host.program = [s.host.position] :=
  ⟨rfl, rfl, rfl, by unfold NoResetTurns; decide +kernel, List.prefix_refl _, by decide +kernel⟩

theorem test_witness_BothOrdersOfARaceAdmitted :
    (hosting [.wr (windowAddr .mod 31) 9] [] (running 1 6 7 10)).phase = .busy 1 ∧ Reg.mod ≠ .res ∧ (31 : Nat) < 32 ∧
    (hosting [.wr (windowAddr .mod 31) 9] [] (running 1 6 7 10)).hostStmt? = some (.wr (windowAddr .mod 31) 9) := by
  decide +kernel

/-- For LoadPseudoWritesRegister, LoadLowKeepsUpperWords and GetPseudoReadsResult: an idle block whose host is about to
load the largest number, to load 0 (one word), and to read 32 words and none. -/
theorem test_witness_host_programs :
    ∀ p ∈ [Pseudo.ld .opa maxOperand, .ldlo .opb 0, .get 0, .getlo 0 5],
      (hosting p.expand [.host] State.reset).phase = .idle ∧ (hosting p.expand [.host] State.reset).rstN = true ∧
      OnlyHostTurns (hosting p.expand [.host] State.reset) ∧
      ProgramAhead (hosting p.expand [.host] State.reset) p.expand :=
  fun p _ => ⟨rfl, rfl, by intro t ht; simpa [hosting] using ht, List.prefix_refl _⟩

/-- `LDLO` of 0 writes one word, of `2^32` two, of the largest number all. -/
theorem test_lowWords : lowWords 0 = 1 ∧ lowWords (2 ^ 32) = 2 ∧ lowWords maxOperand = 32 := by decide +kernel

end Sys2Proof.Tests
end

section
/-! The registers ID, PARAM, CTRL, STATUS and CMD at their offsets (10_state.md R19 to R22, R28). -/

namespace Sys2Proof.Machine

/-! ### Bus accesses at the fixed offsets -/

section FixedOffsets

variable {a : Addr}

theorem busRead_id (h : offset a = 0x000) (s : State) : busRead s a = Config.blockId := by
  simp [busRead, target, offsetTarget, h]

theorem busRead_param (h : offset a = 0x004) (s : State) : busRead s a = paramWord := by
  simp [busRead, target, offsetTarget, h]

theorem busRead_ctrl (h : offset a = 0x008) (s : State) : busRead s a = s.ctrlWord := by
  simp [busRead, target, offsetTarget, h]

theorem busRead_status (h : offset a = 0x00C) (s : State) : busRead s a = s.statusWord := by
  simp [busRead, target, offsetTarget, h]

theorem busRead_cmd (h : offset a = 0x010) (s : State) : busRead s a = 0 := by
  simp [busRead, target, offsetTarget, h]

theorem busWrite_id (h : offset a = 0x000) (d : Word) (s : State) : busWrite a d s = s := by
  simp [busWrite, target, offsetTarget, h]

theorem busWrite_param (h : offset a = 0x004) (d : Word) (s : State) : busWrite a d s = s := by
  simp [busWrite, target, offsetTarget, h]

theorem busWrite_ctrl (h : offset a = 0x008) (d : Word) (s : State) : busWrite a d s = ctrlWrite d s := by
  simp [busWrite, target, offsetTarget, h]

theorem busWrite_status (h : offset a = 0x00C) (d : Word) (s : State) : busWrite a d s = statusWrite d s := by
  simp [busWrite, target, offsetTarget, h]

theorem busWrite_cmd (h : offset a = 0x010) (d : Word) (s : State) : busWrite a d s = cmdWrite d s := by
  simp [busWrite, target, offsetTarget, h]

end FixedOffsets

/-- A CTRL write with bit 1 is the soft reset (70_reset_and_hazards.md R96). -/
theorem ctrlWrite_srst {d : Word} (hd : d.getLsbD 1 = true) (s : State) : ctrlWrite d s = resetRegs s := by
  rw [ctrlWrite_eq, if_pos hd]

/-- A CTRL write without bit 1 sets IE alone (10_state.md R21). -/
theorem ctrlWrite_ie_only {d : Word} (hd : d.getLsbD 1 = false) (s : State) :
    ctrlWrite d s = { s with ie := d.getLsbD 0 } := by
  rw [ctrlWrite_eq, hd]
  rfl

/-- No CTRL write sets COLL (10_state.md R21). -/
theorem coll_of_ctrlWrite_coll {d : Word} {s : State} (h : (ctrlWrite d s).coll = true) : s.coll = true := by
  cases hd : d.getLsbD 1 with
  | true => simp [ctrlWrite_srst hd] at h
  | false => simpa [ctrlWrite_ie_only hd] using h

/-! ### The obligations on single registers -/

/-- Settles O35: both words are constants of the read, and neither write has an effect. -/
theorem idAndParamAreConstant : Obligations.IdAndParamAreConstant := fun s d =>
  have hid : offset 0x000 = 0x000 := rfl
  have hparam : offset 0x004 = 0x004 := rfl
  ⟨busRead_id hid s, busRead_param hparam s, busWrite_id hid d s, busWrite_param hparam d s⟩

/-- Settles O32, by bit 1 of the word written: with it the write is the reset, without it IE is assigned. -/
theorem ctrlRegister : Obligations.CtrlRegister := by
  intro s d
  have ho : offset 0x008 = 0x008 := rfl
  rw [busRead_ctrl ho, busWrite_ctrl ho]
  refine ⟨ctrlWord_toNat s, fun hd => ctrlWrite_ie_only hd s, fun hd => ?_, coll_of_ctrlWrite_coll⟩
  rw [ctrlWrite_srst hd]
  exact ⟨atResetValues_resetRegs s, rfl, rfl, rfl⟩

/-- Settles O34: the word read by its bits, BUSY as the view of PHASE, and the write. -/
theorem statusRegister : Obligations.StatusRegister := by
  intro s d
  have ho : offset 0x00C = 0x00C := rfl
  rw [busRead_status ho, busWrite_status ho]
  exact ⟨statusWord_toNat s, s.busy_eq_true_iff, rfl⟩

/-- Settles O36, by the phase: a write is an acceptance while idle and a collision while busy. -/
theorem cmdRegister : Obligations.CmdRegister := by
  intro s d
  have ho : offset 0x010 = 0x010 := rfl
  rw [busRead_cmd ho, busWrite_cmd ho]
  exact ⟨rfl, fun hidle => cmdWrite_idle hidle d, fun _ hbusy => cmdWrite_busy hbusy d⟩

end Sys2Proof.Machine
end

section
/-! What each event does to DONE, COLL, ERRCODE and PHASE (10_state.md R23 to R26): from a named event to the next
state, and from any step back to the event it was. -/

namespace Sys2Proof.Machine

/-! ### From the event to the next state -/

theorem step_eq_of_completes {s t : State} {c : Word} (h : s.Completes c) (hstep : step s = .next t) :
    t = complete (outcome 1024 c s.opa.toNat s.opb.toNat s.mod.toNat) s.dropTurn := by
  obtain ⟨hturn, hrst, hphase⟩ := h
  have hengine : engineTurn s.dropTurn = completeWord c s.dropTurn := by simp [engineTurn, hrst, hphase]
  rw [step_engine hturn, hengine, completeWord_eq] at hstep
  cases hstep
  rfl

theorem step_eq_of_writes {s t : State} {a : Addr} {d : Word} (h : s.Writes a d) (hstep : step s = .next t) :
    t = (busWrite a d s.dropTurn).advanceHost := by
  obtain ⟨⟨hturn, hstmt⟩, hrst⟩ := h
  have hhost : hostTurn s.dropTurn = runStmt (.wr a d) s.dropTurn := hostTurn_released hstmt hrst
  rw [step_host hturn, hhost] at hstep
  cases hstep
  rfl

theorem atResetValues_of_hardResets {s t : State} (h : s.HardResets) (hstep : step s = .next t) :
    AtResetValues t := by
  rcases h with hturn | ⟨hrst, hturn | hturn⟩
  · rw [step_assertReset hturn] at hstep
    cases hstep
    exact atResetValues_resetRegs s.dropTurn
  · have hengine : engineTurn s.dropTurn = .next (resetRegs s.dropTurn) := by simp [engineTurn, hrst]
    rw [step_engine hturn, hengine] at hstep
    cases hstep
    exact atResetValues_resetRegs s.dropTurn
  · have hrelease : releaseReset s.dropTurn = { resetRegs s.dropTurn with rstN := true } := by
      simp [releaseReset, hrst]
    rw [step_releaseReset hturn, hrelease] at hstep
    cases hstep
    exact atResetValues_resetRegs s.dropTurn

theorem atResetValues_of_softResets {s t : State} (h : s.SoftResets) (hstep : step s = .next t) :
    AtResetValues t := by
  obtain ⟨a, d, hw, ho, hd⟩ := h
  rw [step_eq_of_writes hw hstep, busWrite_ctrl ho, ctrlWrite_srst hd]
  exact atResetValues_resetRegs s.dropTurn

/-- A reset of either kind leaves the block at its reset values (70_reset_and_hazards.md R94, R96). -/
theorem atResetValues_of_resets {s t : State} (h : s.Resets) (hstep : step s = .next t) : AtResetValues t :=
  h.elim (atResetValues_of_softResets · hstep) (atResetValues_of_hardResets · hstep)

namespace AtResetValues

variable {s : State}

theorem done_eq (h : AtResetValues s) : s.done = false := by
  obtain ⟨-, -, -, -, -, hdone, -⟩ := h
  exact hdone

theorem coll_eq (h : AtResetValues s) : s.coll = false := by
  obtain ⟨-, -, -, -, -, -, hcoll, -⟩ := h
  exact hcoll

theorem errcode_eq (h : AtResetValues s) : s.errcode = 0 := by
  obtain ⟨-, -, -, -, -, -, -, herr, -⟩ := h
  exact herr

theorem phase_eq (h : AtResetValues s) : s.phase = .idle := by
  obtain ⟨-, -, -, -, -, -, -, -, hphase⟩ := h
  exact hphase

end AtResetValues

/-! ### Guarded writes: what BUSY decides -/

/-- The offsets at which a write collides while busy: CMD and the operand windows (60_exceptions.md R76). -/
abbrev Guarded (a : Addr) : Prop := offset a = 0x010 ∨ (0x100 ≤ offset a ∧ offset a < 0x400)

theorem busWrite_operandWindow {a : Addr} (h : 0x100 ≤ offset a ∧ offset a < 0x400) :
    ∃ x i, ∀ d s, busWrite a d s = operandWrite x i d s := by
  rcases target_cases a with ⟨ho, -⟩ | ⟨ho, -⟩ | ⟨ho, -⟩ | ⟨ho, -⟩ | ⟨ho, -⟩ | ⟨x, i, -, ho, ht⟩ | ⟨ho, -⟩
  case inr.inr.inr.inr.inr.inl =>
    have hx : x ≠ .res := by
      rintro rfl
      simp only [windowBase] at ho
      omega
    exact ⟨x, i, fun d s => by rw [busWrite, ht, ← windowWrite_operand hx]⟩
  all_goals omega

theorem cmdWrite_coll (d : Word) (s : State) : (cmdWrite d s).coll = (s.coll || s.busy) := by
  cases h : s.phase with
  | idle => simp [cmdWrite_idle h, State.busy_of_idle h]
  | busy c => simp [cmdWrite_busy h, State.busy_of_busy h]

theorem operandWrite_coll (x : Reg) (i : Nat) (d : Word) (s : State) :
    (operandWrite x i d s).coll = (s.coll || s.busy) := by
  cases h : s.phase with
  | idle => simp [operandWrite_idle h, State.busy_of_idle h]
  | busy c => simp [operandWrite_busy h, State.busy_of_busy h]

/-- BUSY decides whether a guarded write sets COLL (10_state.md R23). -/
theorem busWrite_guarded_coll {a : Addr} (h : Guarded a) (d : Word) (s : State) :
    (busWrite a d s).coll = (s.coll || s.busy) := by
  rcases h with ho | ho
  · rw [busWrite_cmd ho, cmdWrite_coll]
  · obtain ⟨x, i, hw⟩ := busWrite_operandWindow ho
    rw [hw, operandWrite_coll]

/-! ### What each named event leaves -/

/-- The values of DONE, COLL, ERRCODE and PHASE in a state. -/
structure HasFlags (s : State) (done coll : Bool) (errcode : BitVec 4) (phase : Phase) : Prop where
  done_eq : s.done = done
  coll_eq : s.coll = coll
  errcode_eq : s.errcode = errcode
  phase_eq : s.phase = phase

/-- ERRCODE after a completion is a code of the table (60_exceptions.md R79). -/
theorem complete_errcode_le (out : Completion) (s : State) : (complete out s).errcode.toNat ≤ 4 := by
  cases out with
  | ok r => exact Nat.zero_le 4
  | err k => exact k.bits_le

theorem hasFlags_complete (out : Completion) (s : State) :
    HasFlags (complete out s) true s.coll (complete out s).errcode .idle := by
  obtain ⟨-, -, -, -, hcoll, -, hphase, hdone⟩ := complete_frame out s
  exact ⟨hdone, hcoll, rfl, hphase⟩

section NamedEvents

variable {s t : State} {a : Addr} {c d : Word}

theorem hasFlags_of_completes (h : s.Completes c) (hstep : step s = .next t) :
    HasFlags t true s.coll t.errcode .idle := by
  rw [step_eq_of_completes h hstep]
  exact hasFlags_complete _ s.dropTurn

/-- An accepted CMD write (60_exceptions.md R75). -/
theorem step_eq_of_accepts (h : s.Writes a c) (ho : offset a = 0x010) (hidle : s.phase = .idle)
    (hstep : step s = .next t) : t = (accepted c s.dropTurn).advanceHost := by
  have hidle' : s.dropTurn.phase = .idle := hidle
  rw [step_eq_of_writes h hstep, busWrite_cmd ho, cmdWrite_idle hidle']

theorem step_eq_of_statusWrite (h : s.Writes a d) (ho : offset a = 0x00C) (hstep : step s = .next t) :
    t = (statusWrite d s.dropTurn).advanceHost := by
  rw [step_eq_of_writes h hstep, busWrite_status ho]

theorem coll_of_guarded (h : s.Writes a d) (hg : Guarded a) (hstep : step s = .next t) :
    t.coll = (s.coll || s.busy) := by
  rw [step_eq_of_writes h hstep]
  exact busWrite_guarded_coll hg d s.dropTurn

theorem coll_of_collides (h : s.Collides) (hstep : step s = .next t) : t.coll = true := by
  obtain ⟨a, d, hw, hbusy, hg⟩ := h
  rw [coll_of_guarded hw hg hstep, hbusy, Bool.or_true]

end NamedEvents

/-! ### From the step back to the event -/

/-- What a step from `s` to `t` can be for DONE, COLL, ERRCODE and PHASE, each event with what it leaves there. -/
inductive FlagEvent (s t : State) : Prop where
  | reset (event : s.Resets) (flags : AtResetValues t)
  | completion (c : Word) (e : BitVec 4) (event : s.Completes c) (code : e.toNat ≤ 4)
      (flags : HasFlags t true s.coll e .idle)
  | acceptance (a : Addr) (c : Word) (event : s.Writes a c) (atCmd : offset a = 0x010) (idle : s.phase = .idle)
      (flags : HasFlags t false s.coll 0 (.busy c))
  | collision (event : s.Collides) (flags : HasFlags t s.done true s.errcode s.phase)
  | statusWrite (a : Addr) (d : Word) (event : s.Writes a d) (atStatus : offset a = 0x00C)
      (flags : HasFlags t (if d.getLsbD 1 then false else s.done) (if d.getLsbD 3 then false else s.coll)
        s.errcode s.phase)
  | unrelated (flags : HasFlags t s.done s.coll s.errcode s.phase)

theorem flagEvent_of_completes {s t : State} {c : Word} (h : s.Completes c) (hstep : step s = .next t) :
    FlagEvent s t := by
  refine .completion c t.errcode h ?_ (hasFlags_of_completes h hstep)
  rw [step_eq_of_completes h hstep]
  exact complete_errcode_le _ s.dropTurn

theorem flagEvent_of_writes {s t : State} {a : Addr} {d : Word} (h : s.Writes a d) (hstep : step s = .next t) :
    FlagEvent s t := by
  have ht := step_eq_of_writes h hstep
  rcases busWrite_cases a d s.dropTurn with ⟨ho, hd, hw⟩ | ⟨-, -, hw⟩ | ⟨ho, hw⟩ | ⟨ho, hidle, hw⟩ |
    ⟨ho, ⟨c, hbusy⟩, hw⟩ | ⟨_, _, -, -, -, -, hw⟩ | ⟨_, _, -, -, -, -, -, hw⟩ | ⟨-, hw⟩ <;> rw [hw] at ht
  · have hreset : s.Resets := .inl ⟨a, d, h, ho, hd⟩
    exact .reset hreset (atResetValues_of_resets hreset hstep)
  · exact .unrelated (by subst ht; constructor <;> rfl)
  · exact .statusWrite a d h ho (by subst ht; constructor <;> rfl)
  · exact .acceptance a d h ho hidle (by subst ht; constructor <;> rfl)
  · exact .collision ⟨a, d, h, State.busy_of_busy hbusy, ho⟩ (by subst ht; constructor <;> rfl)
  · exact .unrelated (by subst ht; constructor <;> simp)
  · exact .unrelated (by subst ht; constructor <;> rfl)
  · exact .unrelated (by subst ht; constructor <;> rfl)

/-- Every step is one of the events, and leaves in the four flags what that event leaves. -/
theorem flagEvent_of_step {s t : State} (hstep : step s = .next t) : FlagEvent s t := by
  rcases step_cases hstep with ⟨hturn, -⟩ | ⟨-, -, ht⟩ | ⟨hturn, hrst, -⟩ | ⟨hturn, hrst, -⟩ | ⟨-, -, -, ht⟩ |
    ⟨c, hc, -⟩ | ⟨a, d, hw, -⟩ | ⟨a, v, -, -, ht⟩ | ⟨-, -, -, k, ht⟩
  · have hreset : s.Resets := .inr (.inl hturn)
    exact .reset hreset (atResetValues_of_resets hreset hstep)
  · exact .unrelated (by subst ht; constructor <;> rfl)
  · have hreset : s.Resets := .inr (.inr ⟨hrst, .inr hturn⟩)
    exact .reset hreset (atResetValues_of_resets hreset hstep)
  · have hreset : s.Resets := .inr (.inr ⟨hrst, .inl hturn⟩)
    exact .reset hreset (atResetValues_of_resets hreset hstep)
  · exact .unrelated (by subst ht; constructor <;> rfl)
  · exact flagEvent_of_completes hc hstep
  · exact flagEvent_of_writes hw hstep
  · exact .unrelated (by subst ht; constructor <;> rfl)
  · exact .unrelated (by subst ht; constructor <;> rfl)

end Sys2Proof.Machine
end

section
/-! The four flags over every step (10_state.md R23 to R26): for each, the only events that change it. -/

namespace Sys2Proof.Machine

section FlagsOverSteps

variable {s t : State}

theorem busy_congr (h : t.phase = s.phase) : t.busy = s.busy := by
  simp only [State.busy, h]

/-! ### COLL -/

theorem collides_of_coll_rises (hstep : step s = .next t) (hs : s.coll = false) (ht : t.coll = true) :
    s.Collides := by
  cases flagEvent_of_step hstep with
  | collision event _ => exact event
  | reset _ flags => simp [flags.coll_eq] at ht
  | completion _ _ _ _ flags => simp [flags.coll_eq, hs] at ht
  | acceptance _ _ _ _ _ flags => simp [flags.coll_eq, hs] at ht
  | statusWrite _ _ _ _ flags => simp [flags.coll_eq, hs] at ht
  | unrelated flags => simp [flags.coll_eq, hs] at ht

theorem event_of_coll_falls (hstep : step s = .next t) (hs : s.coll = true) (ht : t.coll = false) :
    s.Resets ∨ ∃ a d, s.Writes a d ∧ offset a = 0x00C ∧ d.getLsbD 3 = true := by
  cases flagEvent_of_step hstep with
  | reset event _ => exact .inl event
  | statusWrite a d event atStatus flags =>
    have hd : d.getLsbD 3 = true := by simpa [flags.coll_eq, hs] using ht
    exact .inr ⟨a, d, event, atStatus, hd⟩
  | completion _ _ _ _ flags => simp [flags.coll_eq, hs] at ht
  | acceptance _ _ _ _ _ flags => simp [flags.coll_eq, hs] at ht
  | collision _ flags => simp [flags.coll_eq] at ht
  | unrelated flags => simp [flags.coll_eq, hs] at ht

/-! ### DONE -/

theorem completes_of_done_rises (hstep : step s = .next t) (hs : s.done = false) (ht : t.done = true) :
    ∃ c, s.Completes c := by
  cases flagEvent_of_step hstep with
  | completion c _ event _ _ => exact ⟨c, event⟩
  | reset _ flags => simp [flags.done_eq] at ht
  | acceptance _ _ _ _ _ flags => simp [flags.done_eq] at ht
  | collision _ flags => simp [flags.done_eq, hs] at ht
  | statusWrite _ _ _ _ flags => simp [flags.done_eq, hs] at ht
  | unrelated flags => simp [flags.done_eq, hs] at ht

theorem event_of_done_falls (hstep : step s = .next t) (hs : s.done = true) (ht : t.done = false) :
    s.Resets ∨ ∃ a d, s.Writes a d ∧
      ((offset a = 0x010 ∧ s.phase = .idle) ∨ (offset a = 0x00C ∧ d.getLsbD 1 = true)) := by
  cases flagEvent_of_step hstep with
  | reset event _ => exact .inl event
  | acceptance a c event atCmd idle _ => exact .inr ⟨a, c, event, .inl ⟨atCmd, idle⟩⟩
  | statusWrite a d event atStatus flags =>
    have hd : d.getLsbD 1 = true := by simpa [flags.done_eq, hs] using ht
    exact .inr ⟨a, d, event, .inr ⟨atStatus, hd⟩⟩
  | completion _ _ _ _ flags => simp [flags.done_eq] at ht
  | collision _ flags => simp [flags.done_eq, hs] at ht
  | unrelated flags => simp [flags.done_eq, hs] at ht

theorem done_of_clearing_write {a : Addr} {d : Word} (hstep : step s = .next t) (hw : s.Writes a d)
    (h : (offset a = 0x010 ∧ s.phase = .idle) ∨ (offset a = 0x00C ∧ d.getLsbD 1 = true)) : t.done = false := by
  rcases h with ⟨ho, hidle⟩ | ⟨ho, hd⟩
  · rw [step_eq_of_accepts hw ho hidle hstep]
    rfl
  · rw [step_eq_of_statusWrite hw ho hstep]
    simp [hd]

/-! ### BUSY -/

theorem accepts_of_busy_rises (hstep : step s = .next t) (hs : s.busy = false) (ht : t.busy = true) :
    ∃ a c, s.Writes a c ∧ offset a = 0x010 ∧ t.phase = .busy c := by
  cases flagEvent_of_step hstep with
  | acceptance a c event atCmd _ flags => exact ⟨a, c, event, atCmd, flags.phase_eq⟩
  | reset _ flags => simp [State.busy_of_idle flags.phase_eq] at ht
  | completion _ _ _ _ flags => simp [State.busy_of_idle flags.phase_eq] at ht
  | collision _ flags => simp [busy_congr flags.phase_eq, hs] at ht
  | statusWrite _ _ _ _ flags => simp [busy_congr flags.phase_eq, hs] at ht
  | unrelated flags => simp [busy_congr flags.phase_eq, hs] at ht

/-- While busy a step ends the command or keeps its word. -/
theorem phase_of_busy {c : Word} (hstep : step s = .next t) (hs : s.phase = .busy c) :
    (s.Resets ∨ ∃ c, s.Completes c) ∨ t.phase = .busy c := by
  cases flagEvent_of_step hstep with
  | reset event _ => exact .inl (.inl event)
  | completion c _ event _ _ => exact .inl (.inr ⟨c, event⟩)
  | acceptance _ _ _ _ idle _ => simp [hs] at idle
  | collision _ flags => exact .inr (flags.phase_eq.trans hs)
  | statusWrite _ _ _ _ flags => exact .inr (flags.phase_eq.trans hs)
  | unrelated flags => exact .inr (flags.phase_eq.trans hs)

theorem busy_of_ending (hstep : step s = .next t) (h : s.Resets ∨ ∃ c, s.Completes c) : t.busy = false := by
  rcases h with hreset | ⟨c, hc⟩
  · exact State.busy_of_idle (atResetValues_of_resets hreset hstep).phase_eq
  · exact State.busy_of_idle (hasFlags_of_completes hc hstep).phase_eq

/-! ### ERRCODE -/

theorem event_of_errcode_changes (hstep : step s = .next t) (hne : t.errcode ≠ s.errcode) :
    (∃ c, s.Completes c) ∨ (∃ a d, s.Writes a d ∧ offset a = 0x010 ∧ s.phase = .idle) ∨ s.Resets := by
  cases flagEvent_of_step hstep with
  | completion c _ event _ _ => exact .inl ⟨c, event⟩
  | acceptance a c event atCmd idle _ => exact .inr (.inl ⟨a, c, event, atCmd, idle⟩)
  | reset event _ => exact .inr (.inr event)
  | collision _ flags => exact absurd flags.errcode_eq hne
  | statusWrite _ _ _ _ flags => exact absurd flags.errcode_eq hne
  | unrelated flags => exact absurd flags.errcode_eq hne

/-- The ERR bit as read (10_state.md R25). -/
theorem statusWord_err_iff (s : State) : s.statusWord.getLsbD 2 = true ↔ s.errcode ≠ 0 := by
  obtain ⟨-, -, herr, -⟩ := statusWord_bits s
  rw [herr, decide_eq_true_iff]

/-! ### The STATUS invariants in every run -/

/-- The STATUS invariants without the word STATUS reads as: clause (c) holds of every state. -/
theorem statusInv_iff (s : State) :
    StatusInv s ↔ (s.busy = true → s.done = false ∧ s.errcode = 0) ∧ s.errcode.toNat ≤ 4 := by
  obtain ⟨hbusy, hdone, -, -⟩ := statusWord_bits s
  simp only [StatusInv, hbusy, hdone, statusWord_err_iff, iff_self, and_true]

theorem statusInv_of_idle (hidle : s.phase = .idle) (hcode : s.errcode.toNat ≤ 4) : StatusInv s :=
  (statusInv_iff s).mpr ⟨by simp [State.busy_of_idle hidle], hcode⟩

theorem statusInv_of_atResetValues (h : AtResetValues s) : StatusInv s :=
  statusInv_of_idle h.phase_eq (by simp [h.errcode_eq])

/-- Every event keeps the STATUS invariants, in or out of reach of reset (10_state.md R27). -/
theorem statusInv_step (s t : State) (hinv : StatusInv s) (hstep : step s = .next t) : StatusInv t := by
  obtain ⟨hbusy, hcode⟩ := (statusInv_iff s).mp hinv
  cases flagEvent_of_step hstep with
  | reset _ flags => exact statusInv_of_atResetValues flags
  | completion _ e _ code flags => exact statusInv_of_idle flags.phase_eq (by rwa [flags.errcode_eq])
  | acceptance _ _ _ _ _ flags =>
    exact (statusInv_iff t).mpr ⟨fun _ => ⟨flags.done_eq, flags.errcode_eq⟩, by simp [flags.errcode_eq]⟩
  | collision _ flags =>
    rw [statusInv_iff, busy_congr flags.phase_eq, flags.done_eq, flags.errcode_eq]
    exact ⟨hbusy, hcode⟩
  | statusWrite _ _ _ _ flags =>
    rw [statusInv_iff, busy_congr flags.phase_eq, flags.done_eq, flags.errcode_eq]
    exact ⟨fun hb => ⟨by simp [(hbusy hb).left], (hbusy hb).right⟩, hcode⟩
  | unrelated flags =>
    rw [statusInv_iff, busy_congr flags.phase_eq, flags.done_eq, flags.errcode_eq]
    exact ⟨hbusy, hcode⟩

/-- Bits 31..8 of STATUS hold ERRCODE. -/
theorem statusWord_toNat_div (s : State) : s.statusWord.toNat / 256 = s.errcode.toNat := by
  rw [statusWord_toNat]
  split_ifs <;> omega

/-- Under the invariants a busy block reads BUSY and perhaps COLL, and nothing else. -/
theorem statusWord_of_busy (hinv : StatusInv s) (hb : s.busy = true) :
    s.statusWord = 0x00000001 ∨ s.statusWord = 0x00000009 := by
  obtain ⟨hbusy, -⟩ := (statusInv_iff s).mp hinv
  obtain ⟨hdone, herr⟩ := hbusy hb
  have hword : s.statusWord.toNat = 1 + if s.coll then 8 else 0 := by
    simp [statusWord_toNat, hb, hdone, herr]
  cases hc : s.coll with
  | false => exact .inl (BitVec.eq_of_toNat_eq (by rw [hword, hc]; rfl))
  | true => exact .inr (BitVec.eq_of_toNat_eq (by rw [hword, hc]; rfl))

end FlagsOverSteps

/-! ### The obligations on the flags -/

/-- Settles O47: a collision by what BUSY decides of a guarded write, a rise or a fall of COLL by the event the step
was. -/
theorem collIsSticky : Obligations.CollIsSticky := by
  intro s t hstep
  refine ⟨fun hcoll => coll_of_collides hcoll hstep, collides_of_coll_rises hstep, event_of_coll_falls hstep,
    fun hreset => (atResetValues_of_resets hreset hstep).coll_eq, fun a d hw ho hd => ?_⟩
  rw [step_eq_of_statusWrite hw ho hstep]
  simp [hd]

/-- Settles O49: a completion, a reset or a clearing write by the state it leaves, a rise or a fall of DONE by the
event the step was. -/
theorem doneIsSetAndCleared : Obligations.DoneIsSetAndCleared := fun _ _ hstep =>
  ⟨fun ⟨_, hc⟩ => (hasFlags_of_completes hc hstep).done_eq, completes_of_done_rises hstep, event_of_done_falls hstep,
    fun hreset => (atResetValues_of_resets hreset hstep).done_eq, fun _ _ => done_of_clearing_write hstep, rfl⟩

/-- Settles O50: the acceptance is the one event that makes an idle block busy; a busy block keeps its word until a
completion or a reset. -/
theorem busyIsSetAndCleared : Obligations.BusyIsSetAndCleared := by
  intro s t hstep
  refine ⟨accepts_of_busy_rises hstep, fun hs a c hw ho => ?_, fun hs ht => ?_, busy_of_ending hstep,
    fun c hs ht => ?_, fun a d hw hg => coll_of_guarded hw hg hstep⟩
  · rw [step_eq_of_accepts hw ho (s.busy_eq_false_iff.mp hs) hstep]
    rfl
  · obtain ⟨c, hc⟩ := s.busy_eq_true_iff.mp hs
    rcases phase_of_busy hstep hc with hend | hkept
    · exact hend
    · simp [State.busy_of_busy hkept] at ht
  · rcases phase_of_busy hstep hs with hend | hkept
    · simp [busy_of_ending hstep hend] at ht
    · exact hkept

/-- Settles O51: the code written by the outcome of the completion, and every change by the event the step was. -/
theorem errcodePersists : Obligations.ErrcodePersists := by
  intro s t hstep
  refine ⟨fun c hc => ?_, fun a d hw ho hidle => ?_, fun hreset => (atResetValues_of_resets hreset hstep).errcode_eq,
    event_of_errcode_changes hstep, statusWord_err_iff t⟩
  · rw [step_eq_of_completes hc hstep]
    cases outcome 1024 c s.opa.toNat s.opb.toNat s.mod.toNat with
    | ok r => rfl
    | err k => exact ⟨rfl, k.bits_ne_zero⟩
  · rw [step_eq_of_accepts hw ho hidle hstep]
    rfl

/-- Settles O46: every step keeps the STATUS invariants, so every run from reset does, and they are read off the
word STATUS reads as. -/
theorem statusReadsInEveryRun : Obligations.StatusReadsInEveryRun := by
  intro program schedule k t hrun
  have hinv : StatusInv t :=
    runFor_keeps statusInv_step (statusInv_of_atResetValues ⟨rfl, rfl, rfl, rfl, rfl, rfl, rfl, rfl, rfl⟩) hrun
  obtain ⟨-, hcode⟩ := (statusInv_iff t).mp hinv
  obtain ⟨hbusy, -, -, -⟩ := statusWord_bits t
  have herr : t.errcode ≠ 0 ↔ t.errcode.toNat ≠ 0 := not_congr BitVec.toNat_inj.symm
  rw [busRead_status rfl]
  dsimp only
  rw [statusWord_toNat_div, hbusy, statusWord_err_iff]
  exact ⟨statusWord_of_busy hinv, hcode, herr⟩

end Sys2Proof.Machine
end

section
/-! The register interface at every address: what an access answers by the offset it is at, whatever names it, and the
words of a register in its window (20_memory.md R34 to R42). -/

namespace Sys2Proof.Machine

/-! ### An access depends on the offset alone -/

section SameOffset

variable {a b : Addr}

theorem target_congr (h : offset a = offset b) : target a = target b := by
  rw [target, target, h]

theorem busRead_congr_offset (h : offset a = offset b) (s : State) : busRead s a = busRead s b := by
  rw [busRead, busRead, target_congr h]

theorem busWrite_congr_offset (h : offset a = offset b) (d : Word) (s : State) :
    busWrite a d s = busWrite b d s := by
  rw [busWrite, busWrite, target_congr h]

end SameOffset

theorem offset_eq_sub_mod (a : Addr) : offset a = a.toNat - a.toNat % 4 := by
  rw [offset_eq]
  omega

/-- `a & ~3` keeps `addr[11:2]` (20_memory.md R42). -/
theorem offset_aligned (a : Addr) : offset (a &&& 0xFFC) = offset a := by
  have hmask : ∀ j < 10, (0xFFC : Addr).getLsbD (2 + j) = true := by decide
  have hindex : (a &&& 0xFFC).extractLsb' 2 10 = a.extractLsb' 2 10 := by
    apply BitVec.eq_of_getLsbD_eq
    intro j hj
    rw [BitVec.getLsbD_extractLsb', BitVec.getLsbD_extractLsb', BitVec.getLsbD_and, hmask j hj, Bool.and_true]
  rw [offset, wordIndex, hindex, offset, wordIndex]

/-! ### Window words that are not implemented, and offsets at which a write has no effect -/

theorem busRead_unimplemented {i : Nat} (h32 : 32 ≤ i) (h64 : i < 64) (x : Reg) (s : State) :
    busRead s (windowAddr x i) = 0 := by
  have hlt : ¬ i < 32 := by omega
  simp [busRead, target_windowAddr x i h64, State.windowWord, hlt]

theorem busRead_reserved {a : Addr} (h : (0x014 ≤ offset a ∧ offset a < 0x100) ∨ 0x500 ≤ offset a) (s : State) :
    busRead s a = 0 := by
  rcases target_cases a with ⟨ho, -⟩ | ⟨ho, -⟩ | ⟨ho, -⟩ | ⟨ho, -⟩ | ⟨ho, -⟩ | ⟨x, i, hi, ho, -⟩ | ⟨-, ht⟩
  case inr.inr.inr.inr.inr.inl => cases x <;> simp only [windowBase] at ho <;> omega
  case inr.inr.inr.inr.inr.inr => rw [busRead, ht]
  all_goals omega

theorem windowBase_operand_bounds {x : Reg} (hx : x ≠ .res) : 0x100 ≤ windowBase x ∧ windowBase x ≤ 0x300 := by
  cases x with
  | res => exact absurd rfl hx
  | opa | opb | mod => decide

/-- ID, PARAM, the RES window and the reserved offsets ignore every write (20_memory.md R36, R39, R40). -/
theorem busWrite_ignored {a : Addr}
    (h : offset a = 0x000 ∨ offset a = 0x004 ∨ (0x014 ≤ offset a ∧ offset a < 0x100) ∨ 0x400 ≤ offset a)
    (d : Word) (s : State) : busWrite a d s = s := by
  rcases busWrite_cases a d s with ⟨ho, -⟩ | ⟨ho, -⟩ | ⟨ho, -⟩ | ⟨ho, -⟩ | ⟨ho, -⟩ | ⟨x, i, hx, hi, ho, -⟩ |
    ⟨-, -, -, -, -, -, -, hw⟩ | ⟨-, hw⟩
  case inr.inr.inr.inr.inr.inl =>
    have hbase := windowBase_operand_bounds hx
    omega
  case inr.inr.inr.inr.inr.inr.inl => exact hw
  case inr.inr.inr.inr.inr.inr.inr => exact hw
  all_goals omega

/-! ### Window writes by the phase -/

section OperandWindow

variable {s : State} {x : Reg} {i : Nat} {c : Word}

theorem busWrite_window_idle (hidle : s.phase = .idle) (hx : x ≠ .res) (hi : i < 32) (d : Word) :
    busWrite (windowAddr x i) d s = s.setReg x (setWord (s.reg x) i d) := by
  rw [busWrite_window s x i d (by omega), windowWrite_operand hx, operandWrite_idle hidle, setWindowWord_lt hi]

theorem busWrite_window_busy (hbusy : s.phase = .busy c) (hx : x ≠ .res) (hi : i < 64) (d : Word) :
    busWrite (windowAddr x i) d s = collide s := by
  rw [busWrite_window s x i d hi, windowWrite_operand hx, operandWrite_busy hbusy]

theorem busWrite_unimplemented_idle (hidle : s.phase = .idle) (h32 : 32 ≤ i) (h64 : i < 64) (d : Word) :
    busWrite (windowAddr x i) d s = s := by
  rw [busWrite_window s x i d h64]
  by_cases hx : x = .res
  · rw [hx, windowWrite_res]
  · rw [windowWrite_operand hx, operandWrite_idle hidle, setWindowWord_ge h32]

end OperandWindow

/-! ### The fields of a window offset -/

section WindowOffset

variable {x : Reg} {i off : Nat}

theorem windowOffset_bounds (hi : i < 64) (ho : off = windowBase x + 4 * i) : 0x100 ≤ off ∧ off < 0x500 := by
  cases x <;> simp only [windowBase] at ho <;> omega

theorem windowOffset_word (hi : i < 64) (ho : off = windowBase x + 4 * i) : (off - 0x100) % 0x100 / 4 = i := by
  cases x <;> simp only [windowBase] at ho <;> omega

/-- `[OPA, OPB, MOD, RES][n]` at the window number `n` of an offset is the register of that window
(20_memory.md R35). -/
theorem reg_of_windowOffset (s : State) (hi : i < 64) (ho : off = windowBase x + 4 * i) :
    (if (off - 0x100) / 0x100 = 0 then s.opa
      else if (off - 0x100) / 0x100 = 1 then s.opb
      else if (off - 0x100) / 0x100 = 2 then s.mod
      else s.res) = s.reg x := by
  cases x <;> simp only [windowBase] at ho
  case opa => rw [show (off - 0x100) / 0x100 = 0 by omega]; rfl
  case opb => rw [show (off - 0x100) / 0x100 = 1 by omega]; rfl
  case mod => rw [show (off - 0x100) / 0x100 = 2 by omega]; rfl
  case res => rw [show (off - 0x100) / 0x100 = 3 by omega]; rfl

/-- The offset of an operand window decides the register a write replaces (20_memory.md R36). -/
theorem setReg_of_windowOffset (s : State) (f : Operand → Operand) (hx : x ≠ .res) (hi : i < 64)
    (ho : off = windowBase x + 4 * i) :
    (if off < 0x200 then { s with opa := f s.opa }
      else if off < 0x300 then { s with opb := f s.opb }
      else { s with mod := f s.mod }) = s.setReg x (f (s.reg x)) := by
  cases x <;> simp only [windowBase] at ho
  case opa => rw [if_pos (by omega)]; rfl
  case opb => rw [if_neg (by omega), if_pos (by omega)]; rfl
  case mod => rw [if_neg (by omega), if_neg (by omega)]; rfl
  case res => exact absurd rfl hx

end WindowOffset

theorem busRead_window_toNat {a : Addr} {x : Reg} {i : Nat} (hi : i < 64) (ho : offset a = windowBase x + 4 * i)
    (s : State) :
    (busRead s a).toNat = if i < 32 then (s.reg x).toNat / 2 ^ (32 * i) % 2 ^ 32 else 0 := by
  rw [busRead_congr_offset (ho.trans (offset_windowAddr x i hi).symm)]
  split
  next h32 => rw [busRead_window s x i h32, word_toNat]
  next h32 => rw [busRead_unimplemented (by omega) hi]; rfl

/-! ### A register as the sum of its words -/

/-- The first `k` 32-bit words of a number, in little-endian word order, make its low `32 * k` bits. -/
theorem sum_words_eq_mod (n k : Nat) :
    ((List.range k).map fun i => n / 2 ^ (32 * i) % 2 ^ 32 * 2 ^ (32 * i)).sum = n % 2 ^ (32 * k) := by
  induction k with
  | zero => simp [Nat.mod_one]
  | succ k ih =>
    have hpow : 2 ^ (32 * (k + 1)) = 2 ^ (32 * k) * 2 ^ 32 := by rw [← Nat.pow_add, Nat.mul_succ]
    rw [List.range_succ, List.map_append, List.sum_append, ih, hpow, Nat.mod_mul, List.map_singleton,
      List.sum_singleton, Nat.mul_comm (2 ^ (32 * k))]

theorem reg_eq_sum_words (s : State) (x : Reg) :
    (s.reg x).toNat = ((List.range 32).map fun i => (busRead s (windowAddr x i)).toNat * 2 ^ (32 * i)).sum := by
  have hwords : (List.range 32).map (fun i => (busRead s (windowAddr x i)).toNat * 2 ^ (32 * i)) =
      (List.range 32).map fun i => (s.reg x).toNat / 2 ^ (32 * i) % 2 ^ 32 * 2 ^ (32 * i) :=
    List.map_congr_left fun i hi => by rw [busRead_window s x i (List.mem_range.mp hi), word_toNat]
  rw [hwords, sum_words_eq_mod, Nat.mod_eq_of_lt (s.reg x).isLt]

/-! ### BUSY as a view of PHASE -/

theorem busy_eq_true_iff_not_idle (s : State) : s.busy = true ↔ s.phase ≠ .idle := by
  rw [ne_eq, ← State.busy_eq_false_iff, Bool.not_eq_false]

/-! ### The obligations on the register interface -/

/-- Settles O26, by what the address names: the word at each fixed offset, the register's word in a window, 0 at a
reserved offset. -/
theorem busReadRule : Obligations.BusReadRule := by
  intro s a
  dsimp only
  rw [← offset_eq a]
  rcases target_cases a with ⟨ho, -⟩ | ⟨ho, -⟩ | ⟨ho, -⟩ | ⟨ho, -⟩ | ⟨ho, -⟩ | ⟨x, i, hi, ho, -⟩ | ⟨ho, -⟩
  · rw [busRead_id ho, if_pos ho]
    rfl
  · rw [busRead_param ho]
    simp (disch := omega) only [if_pos, if_neg]
    rfl
  · rw [busRead_ctrl ho, ctrlWord_toNat]
    simp (disch := omega) only [if_pos, if_neg]
  · rw [busRead_status ho, statusWord_toNat]
    simp (disch := omega) only [if_pos, if_neg, busy_eq_true_iff_not_idle, Nat.reducePow]
    omega
  · rw [busRead_cmd ho]
    simp (disch := omega) only [if_pos, if_neg]
    rfl
  · rw [busRead_window_toNat hi ho, windowOffset_word hi ho, reg_of_windowOffset s hi ho]
    have hbounds := windowOffset_bounds hi ho
    simp (disch := omega) only [if_pos, if_neg]
  · rw [busRead_reserved ho]
    simp (disch := omega) only [if_neg]
    rfl

/-- Settles O27, by everything a bus write can do. -/
theorem busWriteRule : Obligations.BusWriteRule := by
  intro s a d
  dsimp only
  rw [← offset_eq a]
  rcases busWrite_cases a d s with ⟨ho, hd, hw⟩ | ⟨ho, hd, hw⟩ | ⟨ho, hw⟩ | ⟨ho, hidle, hw⟩ | ⟨ho, ⟨c, hbusy⟩, hw⟩ |
    ⟨x, i, hx, hi, ho, hidle, hw⟩ | ⟨x, i, hx, h32, h64, ho, hidle, hw⟩ | ⟨ho, hw⟩ <;> rw [hw]
  · rw [if_pos ho, if_pos hd]
  · rw [if_pos ho, hd]
    rfl
  · simp (disch := omega) only [if_pos, if_neg]
    rfl
  · have hnotBusy : ¬ s.phase ≠ .idle := not_not_intro hidle
    simp (disch := omega) only [if_pos, if_neg]
    rfl
  · have hne : s.phase ≠ .idle := by simp [hbusy]
    simp (disch := omega) only [if_neg, if_pos ho, if_pos hne]
    rfl
  · have hnotBusy : ¬ s.phase ≠ .idle := not_not_intro hidle
    have hbase := windowBase_operand_bounds hx
    have h64 : i < 64 := by omega
    rw [windowOffset_word h64 ho, setReg_of_windowOffset s (setWord · i d) hx h64 ho]
    simp (disch := omega) only [if_pos, if_neg]
  · have hnotBusy : ¬ s.phase ≠ .idle := not_not_intro hidle
    have hbase := windowBase_operand_bounds hx
    rw [windowOffset_word h64 ho]
    simp (disch := omega) only [if_pos, if_neg]
  · simp (disch := omega) only [if_neg]

/-- Settles O28: the window word as arithmetic and bit by bit, and the register as the sum of its words. -/
theorem windowWordOrder : Obligations.WindowWordOrder := by
  intro s x
  refine ⟨fun i hi => ?_, reg_eq_sum_words s x⟩
  rw [busRead_window s x i hi, windowAddr_toNat x i (by omega)]
  exact ⟨by cases x <;> rfl, word_toNat _ i, fun j hj => word_getLsbD _ i j hj⟩

/-- Settles O29, by the phase: while idle the register becomes its `setWord`, while busy the write collides. -/
theorem operandWriteReplacesOneWord : Obligations.OperandWriteReplacesOneWord := by
  intro s x i d hx hi
  refine ⟨fun hidle => ?_, fun c hbusy => busWrite_window_busy hbusy hx (by omega) d, busRead_window s x i hi⟩
  rw [busWrite_window_idle hidle hx hi, busRead_window _ x i hi, State.reg_setReg_same]
  have hsame : word (setWord (s.reg x) i d) i = d := word_setWord_same _ i d hi
  exact ⟨hsame, fun j hj hne => word_setWord_ne _ i j d hj hne, rfl, hsame⟩

/-- Settles O38: clearing the two low bits keeps the offset, and an access depends on the offset alone. -/
theorem lowAddressBitsIgnored : Obligations.LowAddressBitsIgnored := fun s a d =>
  have haligned : offset a = offset (a &&& 0xFFC) := (offset_aligned a).symm
  ⟨offset_eq_sub_mod a, busRead_congr_offset haligned s, busWrite_congr_offset haligned d s⟩

/-- Settles O39, by the phase for the write. -/
theorem unimplementedWindowWords : Obligations.UnimplementedWindowWords := fun s x _ d h32 h64 =>
  ⟨busRead_unimplemented h32 h64 x s, fun hidle => busWrite_unimplemented_idle hidle h32 h64 d,
    fun _ hbusy hx => busWrite_window_busy hbusy hx h64 d⟩

/-- Settles O40: the read is the window's, and the offsets of the RES window ignore writes. -/
theorem resWindowIsReadOnly : Obligations.ResWindowIsReadOnly := by
  intro s i a d
  refine ⟨busRead_window s .res i, fun hlow _ => busWrite_ignored ?_ d s⟩
  rw [offset_eq]
  omega

/-- Settles O37: the reserved addresses are the reserved offsets. -/
theorem reservedOffsetsAreInert : Obligations.ReservedOffsetsAreInert := by
  intro s a d h
  have hreserved : (0x014 ≤ offset a ∧ offset a < 0x100) ∨ 0x500 ≤ offset a := by
    rw [offset_eq]
    omega
  exact ⟨busRead_reserved hreserved s, busWrite_ignored (by omega) d s⟩

end Sys2Proof.Machine
end

section
/-! The command words: a word is its two fields, the decoder answers a command exactly at the word the encoder gives
for it (30_encoding.md R53, R55, R58), and the statement on the whole word that follows. -/

namespace Sys2Proof

/-- A command word is RSV above OP (R53). -/
theorem rsvField_append_opField (c : Word) : rsvField c ++ opField c = c := by
  unfold rsvField opField
  rw [BitVec.extractLsb'_append_extractLsb'_eq_extractLsb' (by rfl), BitVec.extractLsb'_eq_self]

/-- The format of R53 holds of every command's word. -/
theorem commandFormat (i : Instr) : Laws.CommandFormat.Statement i := by
  cases i with
  | modmul => exact Laws.CommandFormat.modmul
  | montmul => exact Laws.CommandFormat.montmul
  | modexp => exact Laws.CommandFormat.modexp
  | modinv => exact Laws.CommandFormat.modinv

/-- Being a command's word is a matter of the two fields, so no bit of the word is left out (R55). -/
theorem eq_encode_iff {c : Word} {i : Instr} : c = encode i ↔ rsvField c = 0 ∧ opField c = opCode i := by
  constructor
  · rintro rfl
    obtain ⟨-, hrsv, hop, -⟩ := commandFormat i
    exact ⟨hrsv, hop⟩
  · rintro ⟨hrsv, hop⟩
    rw [← rsvField_append_opField c, hrsv, hop]
    rfl

theorem requireRsvZero_eq_command_iff {c : Word} {i j : Instr} :
    requireRsvZero c j = .command i ↔ rsvField c = 0 ∧ j = i := by
  unfold requireRsvZero
  split_ifs with h <;> simp only [h, Decoded.command.injEq, true_and, false_and]

@[simp] theorem decode_encode (i : Instr) : decode (encode i) = .command i := by
  cases i <;> rfl

/-- The decoder answers a command at that command's word only: it compared OP, and it asked for RSV = 0. -/
theorem eq_encode_of_decode {c : Word} {i : Instr} (h : decode c = .command i) : c = encode i := by
  unfold decode at h
  split at h
  case h_1 | h_6 => nomatch h
  case h_2 hop | h_3 hop | h_4 hop | h_5 hop =>
    obtain ⟨hrsv, rfl⟩ := requireRsvZero_eq_command_iff.mp h
    exact eq_encode_iff.mpr ⟨hrsv, BitVec.eq_of_toNat_eq hop⟩

/-- Decoding answers a command exactly at the word that encodes it. -/
theorem decode_eq_command_iff {c : Word} {i : Instr} : decode c = .command i ↔ c = encode i :=
  ⟨eq_encode_of_decode, fun h => h ▸ decode_encode i⟩

theorem Decoded.instr?_eq_some_iff {d : Decoded} {i : Instr} : d.instr? = some i ↔ d = .command i := by
  cases d <;> simp [Decoded.instr?]

theorem instr?_decode_eq_some_iff {c : Word} {i : Instr} : (decode c).instr? = some i ↔ c = encode i := by
  rw [Decoded.instr?_eq_some_iff, decode_eq_command_iff]

theorem instr?_decode_eq_none_iff {c : Word} : (decode c).instr? = none ↔ ∀ i, c ≠ encode i := by
  simp only [Option.eq_none_iff_forall_ne_some, ne_eq, instr?_decode_eq_some_iff]

/-- Settles O1: each of the four words is the encoding of its command, and a word that is none of them is the encoding
of no command. -/
theorem decodeMatchesWholeWord : Obligations.DecodeMatchesWholeWord := by
  refine ⟨fun c => ?_, rfl, rfl, rfl, rfl⟩
  split_ifs with h1 h2 h3 h4
  · exact instr?_decode_eq_some_iff.mpr h1
  · exact instr?_decode_eq_some_iff.mpr h2
  · exact instr?_decode_eq_some_iff.mpr h3
  · exact instr?_decode_eq_some_iff.mpr h4
  · refine instr?_decode_eq_none_iff.mpr fun i => ?_
    cases i with
    | modmul => exact h1
    | montmul => exact h2
    | modexp => exact h3
    | modinv => exact h4

end Sys2Proof
end

section
/-! The arithmetic of the reference sequences: what the Euclid loop of `ModInvRef` answers within its bound, and what
the square-and-multiply loop of `ModExpRef` computes (42_modinv.md R72, 41_modexp.md R68; log 9, log 10). -/

namespace Sys2Proof.Machine

theorem lt_two_pow_bitlen (n : Nat) : n < 2 ^ bitlen n := by
  unfold bitlen
  split_ifs with h
  · rw [h]
    exact Nat.two_pow_pos 0
  · exact Nat.lt_log2_self

/-! ### The Euclid loop -/

section Euclid

variable {v m r0 r1 : Nat} {s0 s1 : Int}

theorem euclidLoop_ended (n r0 : Nat) (s0 s1 : Int) : euclidLoop n r0 0 s0 s1 = (r0, s0) := by
  cases n <;> rfl

theorem euclidLoop_round (h : r1 ≠ 0) (n r0 : Nat) (s0 s1 : Int) :
    euclidLoop (n + 1) r0 r1 s0 s1 = euclidLoop n r1 (r0 % r1) s1 (s0 - (r0 / r1 : Nat) * s1) := by
  rw [euclidLoop, if_neg h, Nat.mod_eq_sub_div_mul]

/-- Two rounds halve the divisor, which is why `2 * bitlen(m)` of them are enough (log 9). -/
theorem two_mul_mod_lt {a b : Nat} (h0 : 0 < b) (h : b < a) : 2 * (a % b) < a := by
  have hlt : a % b < b := Nat.mod_lt a h0
  have hle : b + a % b ≤ a := by
    have hone : b * 1 ≤ b * (a / b) := Nat.mul_le_mul_left b ((Nat.one_le_div_iff h0).mpr h.le)
    have hsplit := Nat.div_add_mod a b
    omega
  omega

theorem gcd_mod_right (r0 r1 : Nat) : Nat.gcd r1 (r0 % r1) = Nat.gcd r0 r1 := by
  rw [Nat.gcd_comm, ← Nat.gcd_rec, Nat.gcd_comm]

/-- With a divisor below `2^k` every bound from `2 * k` on lets the loop end: it answers the gcd, and one and the same
coefficient whatever the bound. -/
theorem euclidLoop_ends (k : Nat) (h : r1 < 2 ^ k) (s0 s1 : Int) :
    ∃ c : Int, ∀ n, 2 * k ≤ n → euclidLoop n r0 r1 s0 s1 = (Nat.gcd r0 r1, c) := by
  induction k generalizing r0 r1 s0 s1 with
  | zero =>
    obtain rfl : r1 = 0 := by simpa using h
    exact ⟨s0, fun n _ => by rw [euclidLoop_ended, Nat.gcd_zero_right]⟩
  | succ k ih =>
    rcases Nat.eq_zero_or_pos r1 with rfl | hpos
    · exact ⟨s0, fun n _ => by rw [euclidLoop_ended, Nat.gcd_zero_right]⟩
    rcases Nat.eq_zero_or_pos (r0 % r1) with hzero | hpos'
    · refine ⟨s1, fun n hn => ?_⟩
      obtain ⟨n, rfl⟩ : ∃ j, n = j + 1 := ⟨n - 1, by omega⟩
      rw [euclidLoop_round hpos.ne', hzero, euclidLoop_ended, ← gcd_mod_right, hzero, Nat.gcd_zero_right]
    · have hhalf := two_mul_mod_lt hpos' (Nat.mod_lt r0 hpos)
      have hlt : r1 % (r0 % r1) < 2 ^ k := by omega
      obtain ⟨c, hc⟩ := ih (r0 := r0 % r1) hlt (s0 - (r0 / r1 : Nat) * s1)
        (s1 - (r1 / (r0 % r1) : Nat) * (s0 - (r0 / r1 : Nat) * s1))
      refine ⟨c, fun n hn => ?_⟩
      obtain ⟨n, rfl⟩ : ∃ j, n = j + 2 := ⟨n - 2, by omega⟩
      rw [euclidLoop_round hpos.ne', euclidLoop_round hpos'.ne', hc n (by omega), gcd_mod_right, gcd_mod_right]

/-- The loop keeps `v * s0 = r0` and `v * s1 = r1` modulo `m`, so its answer has the first property. -/
theorem euclidLoop_bezout (n : Nat) (h0 : v * s0 ≡ r0 [ZMOD m]) (h1 : v * s1 ≡ r1 [ZMOD m]) :
    v * (euclidLoop n r0 r1 s0 s1).2 ≡ ((euclidLoop n r0 r1 s0 s1).1 : Int) [ZMOD m] := by
  induction n generalizing r0 r1 s0 s1 with
  | zero => exact h0
  | succ n ih =>
    by_cases hr : r1 = 0
    · subst hr
      rw [euclidLoop_ended]
      exact h0
    · rw [euclidLoop_round hr]
      refine ih h1 ?_
      calc v * (s0 - (r0 / r1 : Nat) * s1)
          = v * s0 - (r0 / r1 : Nat) * (v * s1) := by ring
        _ ≡ r0 - (r0 / r1 : Nat) * r1 [ZMOD m] := h0.sub (h1.mul_left _)
        _ = ((r0 % r1 : Nat) : Int) := by
          rw [Int.natCast_emod, Int.emod_def, Int.natCast_ediv, mul_comm]

theorem euclid_fst (v m : Nat) : (euclid v m).1 = Nat.gcd v m := by
  obtain ⟨c, hc⟩ := euclidLoop_ends (r0 := v) (bitlen m) (lt_two_pow_bitlen m) 1 0
  rw [euclid, hc _ le_rfl]

theorem euclid_bezout (v m : Nat) : v * (euclid v m).2 ≡ Nat.gcd v m [ZMOD m] := by
  rw [← euclid_fst]
  refine euclidLoop_bezout _ (by rw [mul_one]) ?_
  rw [mul_zero]
  exact (Int.modEq_zero_iff_dvd.mpr dvd_rfl).symm

theorem bezoutCoeff_lt (hm : m ≠ 0) : bezoutCoeff v m < m := by
  have hlt : (euclid v m).2 % (m : Int) < m := Int.emod_lt_of_pos _ (by omega)
  unfold bezoutCoeff
  omega

theorem mul_bezoutCoeff_modEq (hm : m ≠ 0) : v * bezoutCoeff v m ≡ Nat.gcd v m [MOD m] := by
  have hnonneg : 0 ≤ (euclid v m).2 % (m : Int) := Int.emod_nonneg _ (by omega)
  rw [← Int.natCast_modEq_iff, Nat.cast_mul, bezoutCoeff, Int.toNat_of_nonneg hnonneg]
  exact ((Int.mod_modEq _ _).mul_left _).trans (euclid_bezout v m)

/-- A coprime value has at most one inverse in `[0, m)`. -/
theorem inverse_unique {x y : Nat} (hv : Nat.Coprime v m) (hx : x < m) (hy : y < m)
    (hvx : v * x ≡ 1 [MOD m]) (hvy : v * y ≡ 1 [MOD m]) : y = x :=
  have hxy : y ≡ x [MOD m] := Nat.ModEq.cancel_left_of_coprime hv.symm (hvy.trans hvx.symm)
  hxy.eq_of_lt_of_lt hy hx

end Euclid

/-! ### Square and multiply -/

/-- The accumulator is `base` to the part of the exponent above bit `j`; each round adds bit `j - 1`. -/
theorem modExpLoop_eq_pow {base e m j acc : Nat} (hacc : acc = base ^ (e / 2 ^ j) % m) :
    modExpLoop base e m j acc = base ^ e % m := by
  induction j generalizing acc with
  | zero => rw [modExpLoop, hacc, pow_zero, Nat.div_one]
  | succ j ih =>
    have hbits : e / 2 ^ j = 2 * (e / 2 ^ (j + 1)) + (e.testBit j).toNat := by
      rw [Nat.toNat_testBit, pow_succ, ← Nat.div_div_eq_div_mul]
      omega
    have hsquare : mulmod acc acc m = base ^ (2 * (e / 2 ^ (j + 1))) % m := by
      rw [mulmod, hacc, ← Nat.mul_mod, ← pow_add, ← two_mul]
    refine ih ?_
    rw [hbits]
    split_ifs with hbit
    · rw [hsquare, mulmod, Nat.mod_mul_mod, hbit, Bool.toNat_true, pow_succ base]
    · rw [hsquare, Bool.eq_false_of_not_eq_true hbit, Bool.toNat_false, add_zero]

/-- Started at any bit above the exponent's, the sequence gives the power (41_modexp.md R68). -/
theorem modExpFrom_eq_pow {k e : Nat} (h : e < 2 ^ k) (base m : Nat) : modExpFrom k base e m = base ^ e % m :=
  modExpLoop_eq_pow (by rw [Nat.div_eq_of_lt h, pow_zero])

theorem modExp_eq_pow (base e m : Nat) : modExp base e m = base ^ e % m :=
  modExpFrom_eq_pow (lt_two_pow_bitlen e) base m

end Sys2Proof.Machine
end

section
/-! The multiplier (40_modmul.md R62 to R66): the outcomes of the commands as arithmetic, from the outcome to the state
a command leaves, and the statements on MODMUL and MONTMUL. -/

namespace Sys2Proof.Machine

/-! ### From the outcome to the state -/

section Completion

variable {i : Instr} {s t : State}

theorem exec_eq_finishOk {r : Nat} (h : instrOutcome 1024 i s.opa.toNat s.opb.toNat s.mod.toNat = .ok r) :
    exec i s = .next (finishOk r s) := by
  rw [exec_eq_complete, h, complete_ok]

theorem exec_eq_finishErr {k : ErrCode} (h : instrOutcome 1024 i s.opa.toNat s.opb.toNat s.mod.toNat = .err k) :
    exec i s = .next (finishErr k.bits s) := by
  rw [exec_eq_complete, h, complete_err]

/-- ERRCODE 0 after a command tells that its outcome was OK (60_exceptions.md R77). -/
theorem outcome_ok_of_exec (h : exec i s = .next t) (herr : t.errcode = 0) :
    ∃ r, instrOutcome 1024 i s.opa.toNat s.opb.toNat s.mod.toNat = .ok r ∧ t.res = BitVec.ofNat 1024 r := by
  rw [exec_eq_complete] at h
  cases h
  rcases complete_errcode (instrOutcome 1024 i s.opa.toNat s.opb.toNat s.mod.toNat) s with
    ⟨r, hok, -, hres⟩ | ⟨k, -, hcode, -⟩
  · exact ⟨r, hok, hres⟩
  · exact absurd (hcode.symm.trans herr) k.bits_ne_zero

end Completion

/-! ### The outcomes as arithmetic -/

section Outcomes

variable {w a b m r : Nat}

theorem withModulus_eq_ok {out : Completion} (h : withModulus m out = .ok r) : m ≠ 0 ∧ out = .ok r := by
  by_cases hm : m = 0
  · rw [hm, withModulus_zero] at h
    nomatch h
  · rw [withModulus_pos hm] at h
    exact ⟨hm, h⟩

/-- A modulus of 0 is the first error of every command (60_exceptions.md R80). -/
theorem instrOutcome_zero (w : Nat) (i : Instr) (a b : Nat) : instrOutcome w i a b 0 = .err .invalidModulus := by
  cases i <;> rfl

theorem modmulOutcome_eq (hm : m ≠ 0) (a b : Nat) : modmulOutcome a b m = .ok (a * b % m) :=
  withModulus_pos hm _

theorem modexpOutcome_eq (hm : m ≠ 0) (base e : Nat) : modexpOutcome base e m = .ok (base ^ e % m) := by
  rw [modexpOutcome, withModulus_pos hm, modExp_eq_pow]

theorem montmulOutcome_even (hm : m ≠ 0) (heven : m % 2 = 0) (w a b : Nat) :
    montmulOutcome w a b m = .err .evenModulus := by
  rw [montmulOutcome, withModulus_pos hm, if_pos heven]

theorem montmulOutcome_odd (hodd : m % 2 = 1) (w a b : Nat) :
    montmulOutcome w a b m = .ok (a * b * montRinv w m % m) := by
  rw [montmulOutcome, withModulus_pos (by omega), if_neg (by omega)]

/-- Every OK result is below the modulus (R66; for MODEXP and MODINV R70(1), R73). -/
theorem lt_of_instrOutcome_ok {i : Instr} (h : instrOutcome w i a b m = .ok r) : r < m := by
  cases i with
  | modmul =>
    obtain ⟨hm, hr⟩ := withModulus_eq_ok h
    cases hr
    exact Nat.mod_lt _ (by omega)
  | montmul =>
    obtain ⟨hm, hr⟩ := withModulus_eq_ok h
    split_ifs at hr
    cases hr
    exact Nat.mod_lt _ (by omega)
  | modexp =>
    obtain ⟨hm, hr⟩ := withModulus_eq_ok h
    cases hr
    rw [modExp_eq_pow]
    exact Nat.mod_lt _ (by omega)
  | modinv =>
    obtain ⟨hm, hr⟩ := withModulus_eq_ok h
    split_ifs at hr
    cases hr
    exact bezoutCoeff_lt hm

end Outcomes

/-! ### The inverse of the Montgomery radix -/

section Montgomery

variable {w m : Nat}

theorem coprime_two_pow_of_odd (hodd : m % 2 = 1) (w : Nat) : Nat.Coprime (2 ^ w) m :=
  (Nat.coprime_two_left.mpr (Nat.odd_iff.mpr hodd)).pow_left w

/-- `2^W * rinv = 1 (mod m)` for every odd modulus, 1 included (R64). -/
theorem two_pow_mul_montRinv (hodd : m % 2 = 1) : 2 ^ w * montRinv w m ≡ 1 [MOD m] := by
  have hbezout : 2 ^ w * montRinv w m ≡ Nat.gcd (2 ^ w) m [MOD m] := mul_bezoutCoeff_modEq (by omega)
  rwa [(coprime_two_pow_of_odd hodd w).gcd_eq_one] at hbezout

/-- The Montgomery product of `a` and `b` is, modulo `m`, the `c` with `2^W * c = a * b`: the form in which each law of
R65 is one congruence. -/
theorem montmulOutcome_of_modEq {a b c : Nat} (hodd : m % 2 = 1) (h : 2 ^ w * c ≡ a * b [MOD m]) :
    montmulOutcome w a b m = .ok (c % m) := by
  have hc : a * b * montRinv w m ≡ c [MOD m] :=
    calc a * b * montRinv w m
        ≡ 2 ^ w * c * montRinv w m [MOD m] := h.symm.mul_right _
      _ = 2 ^ w * montRinv w m * c := Nat.mul_right_comm _ _ _
      _ ≡ 1 * c [MOD m] := (two_pow_mul_montRinv hodd).mul_right c
      _ = c := Nat.one_mul c
  rw [montmulOutcome_odd hodd, hc]

/-- R65 (3): Montgomery form is kept by the product. -/
theorem montmulOutcome_forms (hodd : m % 2 = 1) (w a b : Nat) :
    montmulOutcome w (a * 2 ^ w % m) (b * 2 ^ w % m) m = .ok (a * b * 2 ^ w % m) := by
  refine montmulOutcome_of_modEq hodd ?_
  calc 2 ^ w * (a * b * 2 ^ w)
      = a * 2 ^ w * (b * 2 ^ w) := by ring
    _ ≡ a * 2 ^ w % m * (b * 2 ^ w % m) [MOD m] := ((Nat.mod_modEq _ _).mul (Nat.mod_modEq _ _)).symm

end Montgomery

/-! ### A register above its value -/

theorem toNat_le_two_pow_sub_one {w : Nat} (x : BitVec w) : x.toNat ≤ 2 ^ w - 1 :=
  Nat.le_sub_one_of_lt x.isLt

/-- A word above a register's value reads 0. -/
theorem word_eq_zero_of_lt {x : Operand} {j : Nat} (h : x.toNat < 2 ^ (32 * j)) : word x j = 0 := by
  apply BitVec.eq_of_toNat_eq
  rw [word_toNat, Nat.div_eq_of_lt h]
  rfl

/-! ### The obligations on the multiplier -/

/-- Settles O9, by whether the modulus is 0. -/
theorem modmulResult : Obligations.ModmulResult := by
  refine ⟨rfl, fun s => ⟨fun hzero => ?_, fun hm => ⟨?_, Nat.mod_lt _ (by omega)⟩⟩⟩
  · exact exec_eq_finishErr (hzero ▸ instrOutcome_zero _ _ _ _)
  · exact exec_eq_finishOk (i := .modmul) (modmulOutcome_eq hm _ _)

/-- Settles O10: `rinv` is the model's Euclid coefficient of `2^1024`, and `2^1024` is coprime to an odd modulus. -/
theorem montmulResult : Obligations.MontmulResult := by
  refine ⟨rfl, fun s => ⟨fun hzero => ?_, fun hm heven => ?_, fun hodd => ?_⟩⟩
  · exact exec_eq_finishErr (hzero ▸ instrOutcome_zero _ _ _ _)
  · exact exec_eq_finishErr (i := .montmul) (montmulOutcome_even hm heven _ _ _)
  · have hm : s.mod.toNat ≠ 0 := by omega
    have hlt : montRinv 1024 s.mod.toNat < s.mod.toNat := bezoutCoeff_lt hm
    exact ⟨montRinv 1024 s.mod.toNat, hlt, two_pow_mul_montRinv hodd,
      fun y hy hinv => inverse_unique (coprime_two_pow_of_odd hodd 1024) hlt hy (two_pow_mul_montRinv hodd) hinv,
      exec_eq_finishOk (i := .montmul) (montmulOutcome_odd hodd _ _ _), Nat.mod_lt _ (by omega)⟩

/-- Settles O18: the outcome's bound carries to RES, since the modulus itself fits in a register. -/
theorem resultsBelowModulus : Obligations.ResultsBelowModulus := by
  intro i s t hexec herr
  obtain ⟨r, hok, hres⟩ := outcome_ok_of_exec hexec herr
  have hr : r < s.mod.toNat := lt_of_instrOutcome_ok hok
  have htoNat : t.res.toNat = r := by
    rw [hres, BitVec.toNat_ofNat, Nat.mod_eq_of_lt (hr.trans s.mod.isLt)]
  exact ⟨htoNat ▸ hr, toNat_le_two_pow_sub_one s.mod, fun j hj => word_eq_zero_of_lt (htoNat ▸ hr.trans hj)⟩

/-- Settles O23: each law is the congruence that characterises a Montgomery product; the last is MODEXP's power. -/
theorem montgomeryDomainLaws : Obligations.MontgomeryDomainLaws := by
  intro w m hodd
  have hm : m ≠ 0 := by omega
  refine ⟨fun a => ?_, fun x rinv hinv => ?_, montmulOutcome_forms hodd w, fun a b c hc => ?_, ?_⟩
  · refine montmulOutcome_of_modEq hodd ?_
    calc 2 ^ w * (a * 2 ^ w)
        = a * (2 ^ w) ^ 2 := by ring
      _ ≡ a * ((2 ^ w) ^ 2 % m) [MOD m] := (Nat.mod_modEq _ _).symm.mul_left a
  · have hone : 2 ^ w * rinv ≡ 1 [MOD m] := hinv
    refine montmulOutcome_of_modEq hodd ?_
    calc 2 ^ w * (x * rinv)
        = x * (2 ^ w * rinv) := Nat.mul_left_comm _ _ _
      _ ≡ x * 1 [MOD m] := hone.mul_left x
  · obtain rfl : a * b * 2 ^ w % m = c := by
      rw [montmulOutcome_forms hodd] at hc
      exact Completion.ok.inj hc
    rw [modmulOutcome_eq hm]
    refine montmulOutcome_of_modEq hodd ?_
    calc 2 ^ w * (a * b)
        = a * b * 2 ^ w := Nat.mul_comm _ _
      _ ≡ a * b * 2 ^ w % m * 1 [MOD m] := by rw [Nat.mul_one]; exact (Nat.mod_modEq _ _).symm
  · rw [modexpOutcome_eq hm, Nat.mul_comm, pow_mul]

end Sys2Proof.Machine
end

section
/-! Modular exponentiation (41_modexp.md R67 to R70): the state MODEXP leaves, and the statements on its result, its
reference sequence, its corner cases and its laws. -/

namespace Sys2Proof.Machine

theorem lt_two_pow_of_bitlen_le {e k : Nat} (h : bitlen e ≤ k) : e < 2 ^ k :=
  (lt_two_pow_bitlen e).trans_le (Nat.pow_le_pow_right two_pos h)

/-- A statement's register 0 is the arithmetic's number 0. -/
theorem operand_toNat_eq_zero {x : Operand} : x.toNat = 0 ↔ x = 0 := by
  rw [BitVec.toNat_eq, BitVec.ofNat_eq_ofNat, BitVec.toNat_zero]

/-- Stated at every width: at the numeral 1024 the rewriting would try to evaluate `2 ^ 1024`. -/
theorem toNat_of_eq_allOnes {w : Nat} {x : BitVec w} (h : x = BitVec.allOnes w) : x.toNat = 2 ^ w - 1 := by
  rw [h, BitVec.toNat_allOnes]

/-! ### The state MODEXP leaves -/

section Modexp

variable {s t : State}

/-- `finish OK(base^e mod m)` (R67). -/
theorem exec_modexp (hm : s.mod.toNat ≠ 0) :
    exec .modexp s = .next (finishOk (s.opa.toNat ^ s.opb.toNat % s.mod.toNat) s) :=
  exec_eq_finishOk (i := .modexp) (modexpOutcome_eq hm _ _)

theorem eq_finishOk_of_exec_modexp (h : exec .modexp s = .next t) (hm : s.mod.toNat ≠ 0) :
    t = finishOk (s.opa.toNat ^ s.opb.toNat % s.mod.toNat) s := by
  rw [exec_modexp hm] at h
  exact (Host.Outcome.next.inj h).symm

/-- RES holds the power unchanged, since a value below the modulus fits in a register. -/
theorem res_toNat_of_exec_modexp (h : exec .modexp s = .next t) (hm : s.mod.toNat ≠ 0) :
    t.res.toNat = s.opa.toNat ^ s.opb.toNat % s.mod.toNat := by
  have hlt : s.opa.toNat ^ s.opb.toNat % s.mod.toNat < s.mod.toNat := Nat.mod_lt _ (Nat.pos_of_ne_zero hm)
  rw [eq_finishOk_of_exec_modexp h hm, finishOk_res, BitVec.toNat_ofNat,
    Nat.mod_eq_of_lt (hlt.trans s.mod.isLt)]

end Modexp

/-! ### The obligations on MODEXP -/

/-- Settles O11, by whether the modulus is 0. -/
theorem modexpResult : Obligations.ModexpResult := by
  refine ⟨rfl, fun s => ⟨fun hzero => ?_, exec_modexp⟩⟩
  exact exec_eq_finishErr (hzero ▸ instrOutcome_zero _ _ _ _)

/-- Settles O19: the loop's invariant holds at its start above any bit from which the exponent's bits are all 0. -/
theorem squareAndMultiplyIsPower : Obligations.SquareAndMultiplyIsPower := fun base e m _ =>
  ⟨modExp_eq_pow base e m, fun _ hk => modExpFrom_eq_pow (lt_two_pow_of_bitlen_le hk) base m⟩

/-- Settles O21: each corner is a fact about the power that RES holds. -/
theorem modexpCorners : Obligations.ModexpCorners := by
  intro s t hexec hmod
  have hm : s.mod.toNat ≠ 0 := mt operand_toNat_eq_zero.mp hmod
  have hres := res_toNat_of_exec_modexp hexec hm
  refine ⟨?_, fun hb => ?_, fun hone => ?_, fun ha hb => ?_, ?_, fun hb => ?_, fun r u hu => ?_⟩
  · rw [eq_finishOk_of_exec_modexp hexec hm, finishOk_errcode]
  · have hzero : t.res.toNat = 1 % s.mod.toNat := by rw [hres, operand_toNat_eq_zero.mpr hb, pow_zero]
    exact ⟨hzero, fun htwo => hzero.trans (Nat.mod_eq_of_lt htwo)⟩
  · have hm1 : s.mod.toNat = 1 := by
      rw [hone, BitVec.ofNat_eq_ofNat, BitVec.toNat_one (by omega)]
    rw [← operand_toNat_eq_zero, hres, hm1, Nat.mod_one]
  · have he : s.opb.toNat ≠ 0 := mt operand_toNat_eq_zero.mp hb
    rw [← operand_toNat_eq_zero, hres, operand_toNat_eq_zero.mpr ha, zero_pow he, Nat.zero_mod]
  · rw [hres, Nat.pow_mod]
  · rw [hres, toNat_of_eq_allOnes hb]
  · have hres' : u.res.toNat = s.opa.toNat ^ s.opb.toNat % s.mod.toNat :=
      res_toNat_of_exec_modexp (s := { s with res := r }) hu hm
    exact BitVec.eq_of_toNat_eq (hres'.trans hres.symm)

/-- Settles O22: the outcome is OK of the power, and the laws are those of powers modulo `m`. -/
theorem modexpLaws : Obligations.ModexpLaws := by
  intro m hm
  have hm0 : m ≠ 0 := Nat.one_le_iff_ne_zero.mp hm
  refine ⟨fun base e => ?_, fun base e => ?_, fun b e1 e2 r1 r2 h1 h2 => ?_, fun b => ?_⟩
  · exact ⟨base ^ e % m, modexpOutcome_eq hm0 base e, Nat.mod_lt _ hm⟩
  · rw [modexpOutcome_eq hm0, modexpOutcome_eq hm0, Nat.pow_mod]
  · rw [modexpOutcome_eq hm0] at h1 h2
    obtain rfl := Completion.ok.inj h1
    obtain rfl := Completion.ok.inj h2
    rw [modexpOutcome_eq hm0, modmulOutcome_eq hm0, pow_add, Nat.mul_mod]
  · rw [modexpOutcome_eq hm0, pow_one]

end Sys2Proof.Machine
end

section
/-! The modular inverse solver (42_modinv.md R71 to R74): MODINV's outcome by the gcd, the inverse it answers, and the
statements on its result, on the inverse's uniqueness and on modulus 1. -/

namespace Sys2Proof.Machine

/-! ### The outcome of MODINV -/

section Modinv

variable {v m : Nat}

theorem modinvOutcome_of_gcd_ne_one (hm : m ≠ 0) (hgcd : Nat.gcd v m ≠ 1) : modinvOutcome v m = .err .noInverse := by
  rw [modinvOutcome, withModulus_pos hm, euclid_fst, if_pos hgcd]

theorem modinvOutcome_of_coprime (hm : m ≠ 0) (hv : Nat.Coprime v m) : modinvOutcome v m = .ok (bezoutCoeff v m) := by
  rw [modinvOutcome, withModulus_pos hm, euclid_fst, if_neg (not_not_intro hv)]

/-- For a coprime value the gcd of the Bezout congruence is 1, so the coefficient is an inverse. -/
theorem mul_bezoutCoeff_of_coprime (hm : m ≠ 0) (hv : Nat.Coprime v m) : v * bezoutCoeff v m ≡ 1 [MOD m] := by
  have hbezout : v * bezoutCoeff v m ≡ Nat.gcd v m [MOD m] := mul_bezoutCoeff_modEq hm
  rwa [hv.gcd_eq_one] at hbezout

/-- The coefficient is the only inverse below the modulus (R73). -/
theorem eq_bezoutCoeff_of_inverse {y : Nat} (hm : m ≠ 0) (hv : Nat.Coprime v m) (hy : y < m)
    (hinv : v * y ≡ 1 [MOD m]) : y = bezoutCoeff v m :=
  inverse_unique hv (bezoutCoeff_lt hm) hy (mul_bezoutCoeff_of_coprime hm hv) hinv

/-- Below modulus 1 there is only 0 (R74). -/
theorem bezoutCoeff_one_right (v : Nat) : bezoutCoeff v 1 = 0 :=
  Nat.lt_one_iff.mp (bezoutCoeff_lt one_ne_zero)

/-- At modulus 1 every value is coprime to the modulus, so no error is raised (R74). -/
theorem modinvOutcome_one_right (v : Nat) : modinvOutcome v 1 = .ok 0 := by
  rw [modinvOutcome_of_coprime one_ne_zero (Nat.coprime_one_right v), bezoutCoeff_one_right]

end Modinv

/-- A statement's register 1 is the arithmetic's number 1. -/
theorem operand_toNat_of_eq_one {x : Operand} (h : x = 1) : x.toNat = 1 := by
  rw [h, BitVec.ofNat_eq_ofNat, BitVec.toNat_one (by omega)]

/-! ### The obligations on MODINV -/

/-- Settles O12, by whether the modulus is 0 and whether the gcd is 1. The last case is about the state with any OPB:
its outcome is that of OPA and MOD. -/
theorem modinvResult : Obligations.ModinvResult := by
  refine ⟨rfl, fun s => ⟨fun hzero => ?_, fun hm hgcd => ?_, fun hm hgcd => ?_⟩⟩
  · exact exec_eq_finishErr (hzero ▸ instrOutcome_zero _ _ _ _)
  · exact exec_eq_finishErr (i := .modinv) (modinvOutcome_of_gcd_ne_one hm hgcd)
  · exact ⟨bezoutCoeff s.opa.toNat s.mod.toNat, bezoutCoeff_lt hm, mul_bezoutCoeff_of_coprime hm hgcd,
      fun y hy hinv => eq_bezoutCoeff_of_inverse hm hgcd hy hinv,
      fun b => exec_eq_finishOk (i := .modinv) (s := { s with opb := b }) (modinvOutcome_of_coprime hm hgcd)⟩

/-- Settles O24: the inverse is the model's Euclid coefficient, and from modulus 2 on `1 mod m` is 1. -/
theorem inverseIsUnique : Obligations.InverseIsUnique := by
  intro v m hpos hgcd
  have hm : m ≠ 0 := Nat.one_le_iff_ne_zero.mp hpos
  have hinv : v * bezoutCoeff v m ≡ 1 [MOD m] := mul_bezoutCoeff_of_coprime hm hgcd
  refine ⟨bezoutCoeff v m, bezoutCoeff_lt hm, hinv, fun y hy hvy => eq_bezoutCoeff_of_inverse hm hgcd hy hvy,
    modinvOutcome_of_coprime hm hgcd, fun htwo => ?_⟩
  have hone : v * bezoutCoeff v m % m = 1 := Nat.mod_eq_of_modEq hinv htwo
  rw [modmulOutcome_eq hm, hone]

/-- Settles O25: the outcome at modulus 1 is OK of 0, and modulo 1 all numbers are congruent. -/
theorem modulusOneInverse : Obligations.ModulusOneInverse := by
  intro s hmod
  have hone : s.mod.toNat = 1 := operand_toNat_of_eq_one hmod
  refine ⟨exec_eq_finishOk (i := .modinv) ?_, ?_⟩
  · rw [hone]
    exact modinvOutcome_one_right _
  · rw [hone]
    exact Nat.modEq_one

end Sys2Proof.Machine
end

section
/-! Acceptance and collision as bus writes (60_exceptions.md R75, R76): what a write does by the phase. -/

namespace Sys2Proof.Machine

/-! ### CTRL, STATUS and `irq` -/

theorem State.irq_eq_true_iff (s : State) : s.irq = true ↔ s.ie = true ∧ s.done = true := by
  rw [State.irq, Bool.and_eq_true]

theorem State.irq_of_ie_clear {s : State} (h : s.ie = false) : s.irq = false := by
  rw [State.irq, h, Bool.false_and]

theorem State.irq_of_done_clear {s : State} (h : s.done = false) : s.irq = false := by
  rw [State.irq, h, Bool.and_false]

/-- A STATUS write as masks: a flag stays where its bit is not written (10_state.md R22). -/
theorem statusWrite_eq_masks (d : Word) (s : State) :
    statusWrite d s = { s with done := s.done && !d.getLsbD 1, coll := s.coll && !d.getLsbD 3 } := by
  unfold statusWrite
  congr 1
  · cases d.getLsbD 1 <;> simp
  · cases d.getLsbD 3 <;> simp

/-! ### Guarded writes by the phase -/

/-- Every write BUSY guards collides while busy, at unimplemented window words too (60_exceptions.md R76). -/
theorem busWrite_guarded_busy {a : Addr} {s : State} {c : Word} (h : Guarded a) (hbusy : s.phase = .busy c)
    (d : Word) : busWrite a d s = collide s := by
  rcases h with ho | ho
  · rw [busWrite_cmd ho, cmdWrite_busy hbusy]
  · obtain ⟨x, i, hw⟩ := busWrite_operandWindow ho
    rw [hw, operandWrite_busy hbusy]

theorem busWrite_cmd_idle {a : Addr} {s : State} (ho : offset a = 0x010) (hidle : s.phase = .idle) (c : Word) :
    busWrite a c s = accepted c s := by
  rw [busWrite_cmd ho, cmdWrite_idle hidle]

/-! ### The obligations on acceptance and collision -/

/-- Settles O31: the write leaves the accepted state, which is busy with DONE cleared. -/
theorem acceptanceRule : Obligations.AcceptanceRule := by
  intro s c hidle
  rw [busWrite_cmd_idle rfl hidle]
  obtain ⟨hbusy, -, -, -⟩ := statusWord_bits (accepted c s)
  exact ⟨rfl, hbusy.trans (State.busy_of_busy rfl), State.irq_of_done_clear rfl⟩

/-- Settles O30, by the four ranges of offsets: only the guarded one looks at the phase. -/
theorem collisionChangesOnlyColl : Obligations.CollisionChangesOnlyColl := by
  intro s c d a hbusy
  refine ⟨fun hg => busWrite_guarded_busy hg hbusy d, fun ho => ?_, fun ho => ?_, fun ho => busWrite_ignored ho d s⟩
  · rw [busWrite_ctrl ho, ctrlWrite_eq]
  · rw [busWrite_status ho, statusWrite_eq_masks]

end Sys2Proof.Machine
end

section
/-! The code of every completion (60_exceptions.md R77, R79, R80): the code an outcome reports, and the order of the
tests that decide it. -/

namespace Sys2Proof.Machine

/-! ### The code an outcome reports -/

/-- The ERRCODE a completion with this outcome leaves: 0 on OK (60_exceptions.md R77, R79). -/
def Completion.code : Completion → BitVec 4
  | .ok _ => 0
  | .err k => k.bits

theorem complete_errcode_eq_code (out : Completion) (s : State) : (complete out s).errcode = out.code := by
  cases out <;> rfl

/-- The completion step is defined, whatever the word in execution is (60_exceptions.md R77). -/
theorem step_of_completes {s : State} {c : Word} (h : s.Completes c) :
    step s = .next (complete (outcome 1024 c s.opa.toNat s.opb.toNat s.mod.toNat) s.dropTurn) := by
  obtain ⟨hturn, hrst, hphase⟩ := h
  rw [step_engine hturn]
  rcases engineTurn_cases s.dropTurn with ⟨hr, -⟩ | ⟨-, hp, -⟩ | ⟨c', -, hp, hengine⟩
  · exact absurd (hr.symm.trans hrst) Bool.false_ne_true
  · nomatch hp.symm.trans hphase
  · cases hp.symm.trans hphase
    exact hengine

/-! ### The outcome of a word by what it decodes to -/

section Precedence

variable {w a b m : Nat}

theorem outcome_encode (w : Nat) (i : Instr) (a b m : Nat) :
    outcome w (encode i) a b m = instrOutcome w i a b m := by
  rw [outcome, decode_encode]

/-- A word that encodes no command is illegal, whatever the operands are (30_encoding.md R57). -/
theorem outcome_of_illegal {c : Word} (h : ∀ i, c ≠ encode i) (w a b m : Nat) :
    outcome w c a b m = .err .illegalCommand := by
  rw [outcome]
  cases hdecode : decode c with
  | command i => exact absurd (eq_encode_of_decode hdecode) (h i)
  | illegal _ => rfl

/-! ### The order of the tests of each command, a modulus of 0 set aside -/

theorem montmulOutcome_code (hm : m ≠ 0) : (montmulOutcome w a b m).code = if m % 2 = 0 then 3 else 0 := by
  split
  next heven => rw [montmulOutcome_even hm heven]; rfl
  next hodd => rw [montmulOutcome_odd (by omega)]; rfl

theorem modinvOutcome_code (hm : m ≠ 0) : (modinvOutcome a m).code = if Nat.gcd a m ≠ 1 then 2 else 0 := by
  split
  next hgcd => rw [modinvOutcome_of_gcd_ne_one hm hgcd]; rfl
  next hgcd => rw [modinvOutcome_of_coprime hm (not_not.mp hgcd)]; rfl

/-- The code of a legal command: INVALID_MODULUS is tested first, and the later tests are one command's each. -/
theorem instrOutcome_code (w : Nat) (i : Instr) (a b m : Nat) :
    (instrOutcome w i a b m).code =
      if m = 0 then 1
      else if i = .montmul ∧ m % 2 = 0 then 3
      else if i = .modinv ∧ Nat.gcd a m ≠ 1 then 2
      else 0 := by
  by_cases hm : m = 0
  · rw [if_pos hm, hm, instrOutcome_zero]
    rfl
  · rw [if_neg hm]
    cases i with
    | modmul => simp [instrOutcome, modmulOutcome_eq hm, Completion.code]
    | montmul => simp [instrOutcome, montmulOutcome_code hm]
    | modexp => simp [instrOutcome, modexpOutcome_eq hm, Completion.code]
    | modinv => simp [instrOutcome, modinvOutcome_code hm]

/-- The code of any word: ILLEGAL_COMMAND is tested before the operands are looked at. -/
theorem outcome_code (w : Nat) (c : Word) (a b m : Nat) :
    (outcome w c a b m).code =
      if c ≠ 1 ∧ c ≠ 2 ∧ c ≠ 3 ∧ c ≠ 4 then 4
      else if m = 0 then 1
      else if c = 2 ∧ m % 2 = 0 then 3
      else if c = 4 ∧ Nat.gcd a m ≠ 1 then 2
      else 0 := by
  split
  next hillegal =>
    obtain ⟨h1, h2, h3, h4⟩ := hillegal
    have hnone : ∀ i, c ≠ encode i
      | .modmul => h1
      | .montmul => h2
      | .modexp => h3
      | .modinv => h4
    rw [outcome_of_illegal hnone]
    rfl
  next hlegal =>
    have hword : ∃ i, c = encode i ∧ (c = 2 ↔ i = .montmul) ∧ (c = 4 ↔ i = .modinv) := by
      by_cases h1 : c = 1
      · exact ⟨.modmul, h1, by simp [h1]⟩
      by_cases h2 : c = 2
      · exact ⟨.montmul, h2, by simp [h2]⟩
      by_cases h3 : c = 3
      · exact ⟨.modexp, h3, by simp [h3]⟩
      by_cases h4 : c = 4
      · exact ⟨.modinv, h4, by simp [h4]⟩
      exact absurd ⟨h1, h2, h3, h4⟩ hlegal
    obtain ⟨i, hc, hmontmul, hmodinv⟩ := hword
    simp only [hmontmul, hmodinv]
    rw [hc, outcome_encode, instrOutcome_code]

end Precedence

/-! ### The obligation on the codes -/

/-- Settles O15: the completion step is defined, and ERRCODE becomes the code of the word's outcome. -/
theorem errorCodePrecedence : Obligations.ErrorCodePrecedence := by
  intro s c hc
  refine ⟨_, step_of_completes hc, ?_⟩
  rw [complete_errcode_eq_code, outcome_code]
  simp only [operand_toNat_eq_zero]

end Sys2Proof.Machine
end

section
/-! The interrupt (60_exceptions.md R84): what a CTRL write leaves in IE and DONE, the only events that change IE, and
the rises and falls of `irq` that follow from those of IE and of DONE. -/

namespace Sys2Proof.Machine

theorem AtResetValues.ie_eq {s : State} (h : AtResetValues s) : s.ie = false := by
  obtain ⟨-, -, -, -, hie, -⟩ := h
  exact hie

section Interrupt

variable {s t : State} {a : Addr} {c d : Word}

/-! ### IE -/

theorem ie_of_completes (h : s.Completes c) (hstep : step s = .next t) : t.ie = s.ie := by
  obtain ⟨-, -, -, hie, -⟩ := complete_frame (outcome 1024 c s.opa.toNat s.opb.toNat s.mod.toNat) s.dropTurn
  rw [step_eq_of_completes h hstep, hie, State.dropTurn_ie]

/-- A CTRL write without bit 1 sets IE alone (10_state.md R21). -/
theorem step_eq_of_ieWrite (h : s.Writes a d) (ho : offset a = 0x008) (hd : d.getLsbD 1 = false)
    (hstep : step s = .next t) : t = State.advanceHost { s.dropTurn with ie := d.getLsbD 0 } := by
  rw [step_eq_of_writes h hstep, busWrite_ctrl ho, ctrlWrite_ie_only hd]

/-- A CTRL write with bit 1 set or bit 0 clear leaves IE at 0, by the reset or by the assignment. -/
theorem ie_of_clearing_ctrlWrite (h : s.Writes a d) (ho : offset a = 0x008)
    (hd : d.getLsbD 1 = true ∨ d.getLsbD 0 = false) (hstep : step s = .next t) : t.ie = false := by
  cases h1 : d.getLsbD 1 with
  | true => exact (atResetValues_of_softResets ⟨a, d, h, ho, h1⟩ hstep).ie_eq
  | false =>
    have h0 : d.getLsbD 0 = false := hd.resolve_left (Bool.eq_false_iff.mp h1)
    rw [step_eq_of_ieWrite h ho h1 hstep]
    exact h0

/-- Bus writes reach IE at CTRL only. -/
theorem busWrite_ie_of_ne_ctrl (ho : offset a ≠ 0x008) (d : Word) (s : State) : (busWrite a d s).ie = s.ie := by
  rcases busWrite_cases a d s with ⟨ho', -⟩ | ⟨ho', -⟩ | ⟨-, hw⟩ | ⟨-, -, hw⟩ | ⟨-, -, hw⟩ | ⟨x, i, -, -, -, -, hw⟩ |
    ⟨x, i, -, -, -, -, -, hw⟩ | ⟨-, hw⟩
  · exact absurd ho' ho
  · exact absurd ho' ho
  all_goals simp [hw]

/-- The only events that change IE: a reset, or a CTRL write that assigns it. -/
theorem event_of_ie_changes (hstep : step s = .next t) (hne : t.ie ≠ s.ie) :
    s.Resets ∨ ∃ a d, s.Writes a d ∧ offset a = 0x008 ∧ d.getLsbD 1 = false ∧ t.ie = d.getLsbD 0 := by
  rcases step_cases hstep with ⟨hturn, -⟩ | ⟨-, -, ht⟩ | ⟨hturn, hrst, -⟩ | ⟨hturn, hrst, -⟩ | ⟨-, -, -, ht⟩ |
    ⟨c, hc, -⟩ | ⟨a, d, hw, ht⟩ | ⟨a, v, -, -, ht⟩ | ⟨-, -, -, k, ht⟩
  · exact .inl (.inr (.inl hturn))
  · simp [ht] at hne
  · exact .inl (.inr (.inr ⟨hrst, .inr hturn⟩))
  · exact .inl (.inr (.inr ⟨hrst, .inl hturn⟩))
  · simp [ht] at hne
  · exact absurd (ie_of_completes hc hstep) hne
  · by_cases ho : offset a = 0x008
    · cases hd : d.getLsbD 1 with
      | true => exact .inl (.inl ⟨a, d, hw, ho, hd⟩)
      | false => exact .inr ⟨a, d, hw, ho, hd, by rw [step_eq_of_ieWrite hw ho hd hstep]; rfl⟩
    · simp [ht, busWrite_ie_of_ne_ctrl ho] at hne
  · simp [ht] at hne
  · simp [ht] at hne

/-! ### Rises of `irq` -/

/-- `irq` rises with DONE, which only a completion sets, or with IE, which only a CTRL write sets. -/
theorem event_of_irq_rises (hstep : step s = .next t) (hs : s.irq = false) (ht : t.irq = true) :
    (s.ie = true ∧ ∃ c, s.Completes c) ∨
      (s.done = true ∧
        ∃ a d, s.Writes a d ∧ offset a = 0x008 ∧ d.getLsbD 1 = false ∧ d.getLsbD 0 = true) := by
  obtain ⟨hie, hdone⟩ := t.irq_eq_true_iff.mp ht
  cases hsdone : s.done with
  | false =>
    obtain ⟨c, hc⟩ := completes_of_done_rises hstep hsdone hdone
    exact .inl ⟨(ie_of_completes hc hstep).symm.trans hie, c, hc⟩
  | true =>
    have hsie : s.ie = false := by simpa [State.irq, hsdone] using hs
    rcases event_of_ie_changes hstep (by simp [hie, hsie]) with hreset | ⟨a, d, hw, ho, hd1, hd0⟩
    · simp [(atResetValues_of_resets hreset hstep).ie_eq] at hie
    · exact .inr ⟨rfl, a, d, hw, ho, hd1, hd0.symm.trans hie⟩

theorem irq_of_completes (hstep : step s = .next t) (hie : s.ie = true) (hc : s.Completes c) : t.irq = true :=
  t.irq_eq_true_iff.mpr ⟨(ie_of_completes hc hstep).trans hie, (hasFlags_of_completes hc hstep).done_eq⟩

theorem irq_of_ieWrite (hstep : step s = .next t) (hdone : s.done = true) (hw : s.Writes a d)
    (ho : offset a = 0x008) (hd1 : d.getLsbD 1 = false) (hd0 : d.getLsbD 0 = true) : t.irq = true := by
  rw [step_eq_of_ieWrite hw ho hd1 hstep]
  exact (State.irq_eq_true_iff _).mpr ⟨hd0, hdone⟩

/-! ### Falls of `irq` -/

/-- `irq` falls with DONE or with IE. -/
theorem event_of_irq_falls (hstep : step s = .next t) (hs : s.irq = true) (ht : t.irq = false) :
    s.Resets ∨ ∃ a d, s.Writes a d ∧
      ((offset a = 0x00C ∧ d.getLsbD 1 = true) ∨ (offset a = 0x010 ∧ s.phase = .idle) ∨
        (offset a = 0x008 ∧ d.getLsbD 0 = false)) := by
  obtain ⟨hie, hdone⟩ := s.irq_eq_true_iff.mp hs
  cases htdone : t.done with
  | false =>
    rcases event_of_done_falls hstep hdone htdone with hreset | ⟨a, d, hw, hcmd | hstatus⟩
    · exact .inl hreset
    · exact .inr ⟨a, d, hw, .inr (.inl hcmd)⟩
    · exact .inr ⟨a, d, hw, .inl hstatus⟩
  | true =>
    have htie : t.ie = false := by simpa [State.irq, htdone] using ht
    rcases event_of_ie_changes hstep (by simp [hie, htie]) with hreset | ⟨a, d, hw, ho, -, hd0⟩
    · exact .inl hreset
    · exact .inr ⟨a, d, hw, .inr (.inr ⟨ho, hd0.symm.trans htie⟩)⟩

/-- Each write that clears DONE or IE lowers `irq`. -/
theorem irq_of_clearing_write (hstep : step s = .next t) (hw : s.Writes a d)
    (h : (offset a = 0x00C ∧ d.getLsbD 1 = true) ∨ (offset a = 0x010 ∧ s.phase = .idle) ∨
      (offset a = 0x008 ∧ (d.getLsbD 1 = true ∨ d.getLsbD 0 = false))) : t.irq = false := by
  rcases h with hstatus | hcmd | ⟨ho, hd⟩
  · exact State.irq_of_done_clear (done_of_clearing_write hstep hw (.inr hstatus))
  · exact State.irq_of_done_clear (done_of_clearing_write hstep hw (.inl hcmd))
  · exact State.irq_of_ie_clear (ie_of_clearing_ctrlWrite hw ho hd hstep)

end Interrupt

/-! ### The obligation on the interrupt -/

/-- Settles O48: each rise and fall of `irq` is one of IE or of DONE, and each listed event moves one of the two. -/
theorem irqRisesAndFallsAsListed : Obligations.IrqRisesAndFallsAsListed :=
  ⟨rfl, fun _ t hstep =>
    ⟨t.irq_eq_true_iff, event_of_irq_rises hstep, event_of_irq_falls hstep,
      fun hie ⟨_, hc⟩ => irq_of_completes hstep hie hc,
      fun hdone _ _ hw ho hd1 hd0 => irq_of_ieWrite hstep hdone hw ho hd1 hd0,
      fun _ _ hw h => irq_of_clearing_write hstep hw h,
      fun hreset => State.irq_of_done_clear (atResetValues_of_hardResets hreset hstep).done_eq⟩⟩

end Sys2Proof.Machine
end

section
/-! Reset (70_reset_and_hazards.md R94 to R96): what the two resets leave, the engine's turn with nothing in execution,
and the host's turn while `rst_n` is 0. -/

namespace Sys2Proof.Machine

section Reset

variable {s t : State}

/-! ### The state a reset leaves -/

/-- Two blocks at their reset values agree: the reset values name every piece of the block's state. -/
theorem AtResetValues.sameBlock (hs : AtResetValues s) (ht : AtResetValues t) : SameBlock s t := by
  unfold AtResetValues at hs ht
  simp only [SameBlock, hs, ht, and_self]

/-- A hardware reset from its falling to its rising event (70_reset_and_hazards.md R94). -/
theorem atResetValues_releaseReset_assertReset (s : State) : AtResetValues (releaseReset (assertReset s)) := by
  have hrelease : releaseReset (assertReset s) = { resetRegs (assertReset s) with rstN := true } :=
    if_neg Bool.false_ne_true
  rw [hrelease]
  exact atResetValues_resetRegs (assertReset s)

/-- With no command in execution the engine's turn completes nothing (60_exceptions.md R77; log 6). -/
theorem step_engine_of_idle (hturn : s.nextTurn = .engine) (hrst : s.rstN = true) (hidle : s.phase = .idle) :
    step s = .next s.dropTurn := by
  rw [step_engine hturn]
  rcases engineTurn_cases s.dropTurn with ⟨hlow, -⟩ | ⟨-, -, hengine⟩ | ⟨c, -, hbusy, -⟩
  · exact absurd (hlow.symm.trans hrst) Bool.false_ne_true
  · exact hengine
  · exact absurd (hbusy.symm.trans hidle) Phase.noConfusion

/-! ### The host while `rst_n` is 0 -/

/-- While reset is asserted the host's next statement is not run but held (70_reset_and_hazards.md R95). -/
theorem step_of_runs_held {stmt : HostStmt} (hrst : s.rstN = false) (h : s.Runs stmt) :
    step s = heldStmt stmt s.dropTurn := by
  obtain ⟨hturn, hstmt⟩ := h
  rw [step_host hturn]
  exact hostTurn_held hstmt hrst

/-- A statement that is no bus transaction, held, changes nothing (70_reset_and_hazards.md R95). -/
theorem heldStmt_of_no_transaction {stmt : HostStmt} (hwr : ∀ a d, stmt ≠ .wr a d) (hrd : ∀ a v, stmt ≠ .rd a v)
    (s : State) : heldStmt stmt s = .next s := by
  cases stmt with
  | wr a d => exact absurd rfl (hwr a d)
  | rd a v => exact absurd rfl (hrd a v)
  | label l => rfl
  | bnz v mask l => rfl
  | bz v mask l => rfl

end Reset

/-! ### The obligations on reset -/

/-- Settles O43: a statement met in reset is held, and of the held statements only the two transactions are refused. -/
theorem transactionsDuringResetRefused : Obligations.TransactionsDuringResetRefused := by
  intro s hrst
  refine ⟨fun a d h => step_of_runs_held hrst h, fun a v h => step_of_runs_held hrst h, fun hturn hwr hrd => ?_⟩
  cases hstmt : s.hostStmt? with
  | none =>
    rw [step_host hturn]
    exact hostTurn_ended hstmt
  | some stmt =>
    rw [step_of_runs_held hrst ⟨hturn, hstmt⟩]
    exact heldStmt_of_no_transaction (fun a d h => hwr a d (h ▸ hstmt)) (fun a v h => hrd a v (h ▸ hstmt)) _

/-- Settles O33: both resets reach the reset values, of which there is one block, and their phase is idle, so the
abandoned command has no completion left. -/
theorem softResetEqualsHardReset : Obligations.SoftResetEqualsHardReset := by
  intro s d hd
  obtain ⟨-, -, hsoft, -⟩ := ctrlRegister s d
  obtain ⟨hreset, hrest⟩ := hsoft hd
  refine ⟨hreset, hrest, hreset.sameBlock (atResetValues_releaseReset_assertReset s), ?_⟩
  intro t hw hstep hrst hturn
  have hsrst : s.SoftResets := ⟨0x008, d, hw, rfl, hd⟩
  exact step_engine_of_idle hturn hrst (atResetValues_of_softResets hsrst hstep).phase_eq

end Sys2Proof.Machine
end

section
/-! What the shared operations leave unchanged, field by field: a bus write, a completion (60_exceptions.md R77), the
host's moves, and the agreement of two blocks. -/

namespace Sys2Proof.Machine

/-! ### The registers -/

@[simp] theorem State.assign_reg (s : State) (v : Nat) (d : Word) (x : Reg) : (s.assign v d).reg x = s.reg x := by
  cases x <;> rfl

@[simp] theorem State.jumpHost_reg (s : State) (k : Nat) (x : Reg) : (s.jumpHost k).reg x = s.reg x := by
  cases x <;> rfl

@[simp] theorem collide_reg (s : State) (x : Reg) : (collide s).reg x = s.reg x := by
  cases x <;> rfl

theorem setReg_res {x : Reg} (hx : x ≠ .res) (s : State) (v : Operand) : (s.setReg x v).res = s.res :=
  State.reg_setReg_ne s x .res v hx.symm

/-! ### A bus write -/

theorem busWrite_rstN (a : Addr) (d : Word) (s : State) : (busWrite a d s).rstN = s.rstN :=
  (busWrite_rest a d s).left

theorem busWrite_host (a : Addr) (d : Word) (s : State) : (busWrite a d s).host = s.host :=
  (busWrite_rest a d s).right.left

theorem busWrite_schedule (a : Addr) (d : Word) (s : State) : (busWrite a d s).schedule = s.schedule :=
  (busWrite_rest a d s).right.right

/-! ### A completion -/

theorem complete_rstN (out : Completion) (s : State) : (complete out s).rstN = s.rstN := by
  obtain ⟨-, -, -, -, -, ⟨hrst, -, -⟩, -, -⟩ := complete_frame out s
  exact hrst

theorem complete_host (out : Completion) (s : State) : (complete out s).host = s.host := by
  obtain ⟨-, -, -, -, -, ⟨-, hhost, -⟩, -, -⟩ := complete_frame out s
  exact hhost

theorem complete_schedule (out : Completion) (s : State) : (complete out s).schedule = s.schedule := by
  obtain ⟨-, -, -, -, -, ⟨-, -, hschedule⟩, -, -⟩ := complete_frame out s
  exact hschedule

theorem complete_coll (out : Completion) (s : State) : (complete out s).coll = s.coll := by
  obtain ⟨-, -, -, -, hcoll, -⟩ := complete_frame out s
  exact hcoll

theorem complete_done (out : Completion) (s : State) : (complete out s).done = true := by
  obtain ⟨-, -, -, -, -, -, -, hdone⟩ := complete_frame out s
  exact hdone

theorem complete_phase (out : Completion) (s : State) : (complete out s).phase = .idle := by
  obtain ⟨-, -, -, -, -, -, hphase, -⟩ := complete_frame out s
  exact hphase

theorem complete_reg_operand {x : Reg} (hx : x ≠ .res) (out : Completion) (s : State) :
    (complete out s).reg x = s.reg x := by
  obtain ⟨hopa, hopb, hmod, -⟩ := complete_frame out s
  cases x with
  | opa => exact hopa
  | opb => exact hopb
  | mod => exact hmod
  | res => exact absurd rfl hx

theorem complete_ie (out : Completion) (s : State) : (complete out s).ie = s.ie := by
  obtain ⟨-, -, -, hie, -⟩ := complete_frame out s
  exact hie

theorem complete_res_of_err {out : Completion} {s : State} (h : (complete out s).errcode ≠ 0) :
    (complete out s).res = s.res := by
  rcases complete_errcode out s with ⟨r, -, hcode, -⟩ | ⟨k, -, -, hres⟩
  · exact absurd hcode h
  · exact hres

/-- An OK completion leaves its result, whatever the state was. -/
theorem complete_res_of_ok {out : Completion} {s : State} (h : (complete out s).errcode = 0) (t : State) :
    (complete out s).res = (complete out t).res := by
  cases out with
  | ok r => rfl
  | err k => exact absurd h k.bits_ne_zero

theorem complete_res_congr {s t : State} (h : s.res = t.res) (out : Completion) :
    (complete out s).res = (complete out t).res := by
  cases out with
  | ok r => rfl
  | err k => exact h

theorem complete_errcode_congr (out : Completion) (s t : State) :
    (complete out s).errcode = (complete out t).errcode := by
  rw [complete_errcode_eq_code, complete_errcode_eq_code]

/-! ### Two states with the same block -/

theorem SameBlock.trans {s t u : State} (hst : SameBlock s t) (htu : SameBlock t u) : SameBlock s u := by
  unfold SameBlock at *
  simp only [hst, htu, and_self]

theorem SameBlock.phase_eq {s t : State} (h : SameBlock s t) : t.phase = s.phase := by
  obtain ⟨-, -, -, -, -, -, -, -, hphase⟩ := h
  exact hphase

theorem SameBlock.done_eq {s t : State} (h : SameBlock s t) : t.done = s.done := by
  obtain ⟨-, -, -, -, -, hdone, -⟩ := h
  exact hdone

/-- The same outcome on the same block leaves the same block. -/
theorem sameBlock_complete {s t : State} (h : SameBlock s t) (out : Completion) :
    SameBlock (complete out s) (complete out t) := by
  unfold SameBlock at *
  cases out <;> simp only [complete_ok, complete_err, finishOk, finishErr, h, and_self]

end Sys2Proof.Machine
end

section
/-! The round trip of decoder and encoder (30_encoding.md R53 to R59): the format of a word as the existence of a
command, the table's numbering of a word, and the illegal words by the two fields as numbers. -/

namespace Sys2Proof

/-- OP is the low four bits (R53). -/
theorem opField_toNat (c : Word) : (opField c).toNat = c.toNat % 16 := by
  rw [opField, BitVec.extractLsb'_toNat, Nat.shiftRight_zero]

/-- RSV is the rest (R53). -/
theorem rsvField_eq_zero_iff (c : Word) : rsvField c = 0 ↔ c.toNat / 16 = 0 := by
  have hlt := c.isLt
  rw [← BitVec.toNat_inj, rsvField, BitVec.extractLsb'_toNat, Nat.shiftRight_eq_div_pow, BitVec.ofNat_eq_ofNat,
    BitVec.toNat_zero]
  omega

/-! ### A word's format -/

/-- The codes 1 to 4 are each some command's (R55). -/
theorem exists_opCode_eq {op : BitVec 4} (hlow : 1 ≤ op.toNat) (hhigh : op.toNat ≤ 4) : ∃ i, op = opCode i := by
  obtain h | h | h | h : op.toNat = 1 ∨ op.toNat = 2 ∨ op.toNat = 3 ∨ op.toNat = 4 := by omega
  · exact ⟨.modmul, BitVec.eq_of_toNat_eq h⟩
  · exact ⟨.montmul, BitVec.eq_of_toNat_eq h⟩
  · exact ⟨.modexp, BitVec.eq_of_toNat_eq h⟩
  · exact ⟨.modinv, BitVec.eq_of_toNat_eq h⟩

theorem commandWordWellFormed_iff (c : Word) :
    commandWordWellFormed c = true ↔ ∃ i : Instr, i.wellFormed = true ∧ c = encode i := by
  constructor
  · intro h
    simp only [commandWordWellFormed, Bool.and_eq_true, beq_iff_eq, decide_eq_true_eq] at h
    obtain ⟨⟨hrsv, hlow⟩, hhigh⟩ := h
    obtain ⟨i, hop⟩ := exists_opCode_eq hlow hhigh
    obtain ⟨hwf, -⟩ := commandFormat i
    exact ⟨i, hwf, eq_encode_iff.mpr ⟨hrsv, hop⟩⟩
  · rintro ⟨i, -, rfl⟩
    obtain ⟨-, -, -, hformat⟩ := commandFormat i
    exact hformat

/-! ### The table's numbering -/

theorem tableWord_32 (w : Nat) : tableWord 32 w = BitVec.ofNat 32 w :=
  BitVec.eq_of_toNat_eq (by simp [tableWord])

theorem tableWord_eq_iff {w : Nat} (hw : w < 2 ^ 32) (c : Word) : tableWord 32 w = c ↔ w = c.toNat := by
  rw [tableWord_32, ← BitVec.toNat_inj, BitVec.toNat_ofNat, Nat.mod_eq_of_lt hw]

/-! ### Illegal words -/

theorem requireRsvZero_eq_illegal_iff {c : Word} {i : Instr} {why : IllegalReason} :
    requireRsvZero c i = .illegal why ↔ why = .rsvNotZero ∧ rsvField c ≠ 0 := by
  unfold requireRsvZero
  split_ifs with h
  · simp [h]
  · exact ⟨fun heq => ⟨(Decoded.illegal.inj heq).symm, h⟩, fun ⟨hwhy, _⟩ => hwhy ▸ rfl⟩

/-- Which reason an illegal word is given: OP decides, and for the four codes of commands RSV does (R57). -/
theorem decode_eq_illegal_iff (c : Word) (why : IllegalReason) :
    decode c = .illegal why ↔
      (why = .opZero ∧ (opField c).toNat = 0) ∨ (why = .opReserved ∧ 5 ≤ (opField c).toNat) ∨
        (why = .rsvNotZero ∧ 1 ≤ (opField c).toNat ∧ (opField c).toNat ≤ 4 ∧ rsvField c ≠ 0) := by
  unfold decode
  split
  case h_1 hop => simp [hop, @eq_comm _ why]
  case h_2 hop | h_3 hop | h_4 hop | h_5 hop => simp [hop, requireRsvZero_eq_illegal_iff]
  case h_6 h0 h1 h2 h3 h4 =>
    simp only [imp_false] at h0 h1 h2 h3 h4
    have hle : 5 ≤ (opField c).toNat := by omega
    have hnot : ¬ (opField c).toNat ≤ 4 := by omega
    simp [h0, hle, hnot, @eq_comm _ why]

theorem decode_opZero_iff (c : Word) : decode c = .illegal .opZero ↔ c.toNat % 16 = 0 := by
  simp [decode_eq_illegal_iff, opField_toNat]

theorem decode_opReserved_iff (c : Word) : decode c = .illegal .opReserved ↔ 5 ≤ c.toNat % 16 := by
  simp [decode_eq_illegal_iff, opField_toNat]

theorem decode_rsvNotZero_iff (c : Word) :
    decode c = .illegal .rsvNotZero ↔ 1 ≤ c.toNat % 16 ∧ c.toNat % 16 ≤ 4 ∧ c.toNat / 16 ≠ 0 := by
  simp only [decode_eq_illegal_iff, opField_toNat, ne_eq, rsvField_eq_zero_iff, reduceCtorEq, false_and, true_and,
    false_or]

/-! ### The obligations on encoding -/

/-- Settles O2: decoding answers a command exactly at its encoding, the format is that of the four codes, and the table
numbers a word by its value. -/
theorem decodeEncodeAgree : Obligations.DecodeEncodeAgree := by
  refine ⟨fun _ _ => decode_eq_command_iff, commandWordWellFormed_iff, fun w i hw => ?_⟩
  rw [decodeTableWord, instr?_decode_eq_some_iff, tableWord_eq_iff hw]

/-- Settles O3: each class is one case of the decoder, with the two fields read as numbers. -/
theorem illegalWordsByClass : Obligations.IllegalWordsByClass := fun c =>
  ⟨decode_opZero_iff c, decode_opReserved_iff c, decode_rsvNotZero_iff c⟩

/-- Settles O4: the four words of the table are encodings, and each illegal word falls in its class. -/
theorem tableWordsDecode : Obligations.TableWordsDecode :=
  ⟨decode_encode .modmul, decode_encode .montmul, decode_encode .modexp, decode_encode .modinv,
    (decode_opZero_iff _).mpr (by decide), (decode_opReserved_iff _).mpr (by decide),
    (decode_opReserved_iff _).mpr (by decide), (decode_rsvNotZero_iff _).mpr (by decide),
    (decode_rsvNotZero_iff _).mpr (by decide), (decode_opReserved_iff _).mpr (by decide),
    (decode_rsvNotZero_iff _).mpr (by decide)⟩

end Sys2Proof
end

section
/-! The invariant of the machine over every step: the block held while `rst_n` is 0 (70_reset_and_hazards.md R94, R95),
and the host's variables, which only an `RD` assigns. -/

namespace Sys2Proof.Machine

section Held

variable {s t : State}

/-! ### While `rst_n` is 0 -/

/-- The turn of a host whose run has ended changes nothing (70_reset_and_hazards.md R111; log 6). -/
theorem step_of_host_ended (hturn : s.nextTurn = .host) (hstmt : s.hostStmt? = none) : step s = .next s.dropTurn := by
  rw [step_host hturn]
  exact hostTurn_ended hstmt

/-- The host has no step while reset is asserted: a turn of it that is not refused changes nothing (R95). -/
theorem step_eq_of_host_held (hturn : s.nextTurn = .host) (hrst : s.rstN = false) (hstep : step s = .next t) :
    t = s.dropTurn := by
  cases hstmt : s.hostStmt? with
  | none =>
    rw [step_of_host_ended hturn hstmt] at hstep
    exact (Host.Outcome.next.inj hstep).symm
  | some stmt =>
    rw [step_of_runs_held hrst ⟨hturn, hstmt⟩] at hstep
    cases stmt <;> cases hstep <;> rfl

/-- Every turn but the host's holds the block; the host's leaves it as it was held. -/
theorem atResetValues_of_held (hrst : s.rstN = false) (hs : AtResetValues s) (hstep : step s = .next t) :
    AtResetValues t := by
  cases hturn : s.nextTurn with
  | host =>
    rw [step_eq_of_host_held hturn hrst hstep]
    exact hs
  | engine => exact atResetValues_of_hardResets (.inr ⟨hrst, .inl hturn⟩) hstep
  | assertReset => exact atResetValues_of_hardResets (.inl hturn) hstep
  | releaseReset => exact atResetValues_of_hardResets (.inr ⟨hrst, .inr hturn⟩) hstep

/-- Only the two events of the reset input move it (R94; log 7). -/
theorem rstN_of_step (hstep : step s = .next t) (ha : s.nextTurn ≠ .assertReset) (hr : s.nextTurn ≠ .releaseReset) :
    t.rstN = s.rstN := by
  rcases step_cases hstep with ⟨hturn, -⟩ | ⟨hturn, -⟩ | ⟨hturn, -⟩ | ⟨-, -, rfl⟩ | ⟨-, -, -, rfl⟩ | ⟨c, -, rfl⟩ |
    ⟨a, d, -, rfl⟩ | ⟨a, v, -, -, rfl⟩ | ⟨-, -, -, k, rfl⟩
  · exact absurd hturn ha
  · exact absurd hturn hr
  · exact absurd hturn hr
  · rfl
  · rfl
  · rw [complete_rstN, State.dropTurn_rstN]
  · rw [State.advanceHost_rstN, busWrite_rstN, State.dropTurn_rstN]
  · rfl
  · rfl

/-- The reset input is low after a step only if it fell or was low before. -/
theorem asserted_of_rstN_low (hstep : step s = .next t) (hlow : t.rstN = false) :
    s.nextTurn = .assertReset ∨ s.rstN = false := by
  cases hturn : s.nextTurn with
  | assertReset => exact .inl rfl
  | releaseReset =>
    cases hrst : s.rstN with
    | false => exact .inr rfl
    | true =>
      rw [step_releaseReset hturn] at hstep
      cases hstep
      simp [releaseReset, hrst] at hlow
  | host => exact .inr (by rwa [rstN_of_step hstep (by simp [hturn]) (by simp [hturn])] at hlow)
  | engine => exact .inr (by rwa [rstN_of_step hstep (by simp [hturn]) (by simp [hturn])] at hlow)

theorem resetHeld_step (hs : ResetHeld s) (hstep : step s = .next t) : ResetHeld t := by
  intro hlow
  rcases asserted_of_rstN_low hstep hlow with hturn | hrst
  · exact atResetValues_of_hardResets (.inl hturn) hstep
  · exact atResetValues_of_held hrst (hs hrst) hstep

/-! ### The host's variables -/

/-- Only an `RD` changes a host variable (30_encoding.md R60). -/
theorem vars_of_step (hstep : step s = .next t) :
    t.host.vars = s.host.vars ∨ ∃ v d, t.host.vars = assignVar v d s.host.vars := by
  rcases step_cases hstep with ⟨-, rfl⟩ | ⟨-, -, rfl⟩ | ⟨-, -, rfl⟩ | ⟨-, -, rfl⟩ | ⟨-, -, -, rfl⟩ | ⟨c, -, rfl⟩ |
    ⟨a, d, -, rfl⟩ | ⟨a, v, -, -, rfl⟩ | ⟨-, -, -, k, rfl⟩
  case inr.inr.inr.inr.inr.inl => exact .inl (by rw [complete_host, State.dropTurn_host])
  case inr.inr.inr.inr.inr.inr.inl =>
    exact .inl (by rw [State.advanceHost_host, busWrite_host, State.dropTurn_host])
  case inr.inr.inr.inr.inr.inr.inr.inl => exact .inr ⟨v, busRead s a, rfl⟩
  all_goals exact .inl rfl

theorem varsSorted_step (hs : VarsSorted s.host.vars) (hstep : step s = .next t) : VarsSorted t.host.vars := by
  rcases vars_of_step hstep with hvars | ⟨v, d, hvars⟩ <;> rw [hvars]
  · exact hs
  · exact varsSorted_assignVar v d hs

end Held

/-! ### The obligations on the invariant, the reset state and the hardware reset -/

/-- Settles O44: each of the three parts is kept by every step on its own. -/
theorem invariantKeptByStep : Obligations.InvariantKeptByStep := by
  rintro s t ⟨hstatus, hheld, hvars⟩ hstep
  exact ⟨statusInv_step s t hstatus hstep, resetHeld_step hheld hstep, varsSorted_step hvars hstep⟩

theorem atResetValues_reset : AtResetValues State.reset := ⟨rfl, rfl, rfl, rfl, rfl, rfl, rfl, rfl, rfl⟩

/-- Settles O45: the block is at its reset values, and the host has no variable yet. -/
theorem invariantHoldsAtReset : Obligations.InvariantHoldsAtReset :=
  ⟨statusInv_of_atResetValues atResetValues_reset, fun _ => atResetValues_reset, List.Pairwise.nil⟩

theorem reset_reg (x : Reg) : State.reset.reg x = 0 := by
  cases x <;> rfl

/-- Settles O41, by what the address names: only the two constants are not 0. -/
theorem resetStateReads : Obligations.ResetStateReads := by
  refine ⟨atResetValues_reset, rfl, fun a => ?_⟩
  rcases target_cases a with ⟨ho, -⟩ | ⟨ho, -⟩ | ⟨ho, -⟩ | ⟨ho, -⟩ | ⟨ho, -⟩ | ⟨x, i, hi, ho, -⟩ | ⟨ho, -⟩
  · rw [busRead_id ho, if_pos ho]
    rfl
  · rw [busRead_param ho, if_neg (by omega), if_pos ho]
    rfl
  · rw [busRead_ctrl ho, if_neg (by omega), if_neg (by omega)]
    rfl
  · rw [busRead_status ho, if_neg (by omega), if_neg (by omega)]
    rfl
  · rw [busRead_cmd ho, if_neg (by omega), if_neg (by omega)]
  · obtain ⟨hlow, -⟩ := windowOffset_bounds hi ho
    rw [if_neg (by omega), if_neg (by omega)]
    apply BitVec.eq_of_toNat_eq
    rw [busRead_window_toNat hi ho, reset_reg, operand_toNat_eq_zero.mpr rfl, Nat.zero_div, Nat.zero_mod, ite_self]
    rfl
  · rw [busRead_reserved ho, if_neg (by omega), if_neg (by omega)]

/-- Settles O42: the fall and the rise are resets, and between them the block is held. -/
theorem hardResetHolds : Obligations.HardResetHolds := by
  refine ⟨fun s hturn => ?_, fun s t hrst hs hstep => atResetValues_of_held hrst hs hstep, fun s hturn hrst => ?_⟩
  · exact ⟨_, step_assertReset hturn, atResetValues_resetRegs s.dropTurn, rfl, rfl⟩
  · have hrelease : releaseReset s.dropTurn = { resetRegs s.dropTurn with rstN := true } := by
      simp [releaseReset, hrst]
    exact ⟨_, (step_releaseReset hturn).trans (congrArg _ hrelease), atResetValues_resetRegs s.dropTurn, rfl, rfl⟩

end Sys2Proof.Machine
end

section
/-! The completion step of a command word (60_exceptions.md R77, R78): the step as the command's meaning, the words that
are no command's, and what a command reads and leaves unchanged. -/

namespace Sys2Proof.Machine

/-! ### The word in execution -/

section Word

variable {s : State} {c : Word} {i : Instr} {why : IllegalReason}

theorem outcome_of_command (h : decode c = .command i) (w a b m : Nat) :
    outcome w c a b m = instrOutcome w i a b m := by
  rw [outcome, h]

theorem outcome_of_decode_illegal (h : decode c = .illegal why) (w a b m : Nat) :
    outcome w c a b m = .err .illegalCommand := by
  rw [outcome, h]

/-- The completion of a legal word is the command's meaning (R77). -/
theorem step_eq_exec (hc : s.Completes c) (hi : decode c = .command i) : step s = exec i s.dropTurn := by
  rw [step_of_completes hc, outcome_of_command hi, exec_eq_complete]
  rfl

/-- The completion of an illegal word is ERR(ILLEGAL_COMMAND) (30_encoding.md R57). -/
theorem step_eq_finishErr_illegal (hc : s.Completes c) (hout : ∀ w a b m, outcome w c a b m = .err .illegalCommand) :
    step s = .next (finishErr 4 s.dropTurn) := by
  rw [step_of_completes hc, hout, complete_err]
  rfl

/-- With the schedule exhausted a busy block has the turn (70_reset_and_hazards.md R113; log 3). -/
theorem nextTurn_of_busy_exhausted (hschedule : s.schedule = []) (hbusy : s.phase = .busy c) :
    s.nextTurn = .engine := by
  rw [nextTurn_nil hschedule, State.busy_of_busy hbusy]
  simp

end Word

/-! ### The word placed by `withFetchWord` (log 12) -/

theorem nextTurn_withFetchWord (s : State) (nbits w : Nat) : (s.withFetchWord nbits w).nextTurn = .engine := by
  cases hschedule : s.schedule with
  | nil => exact nextTurn_of_busy_exhausted (c := tableWord nbits w) (by simp [State.withFetchWord, hschedule]) rfl
  | cons turn rest => exact nextTurn_cons (l := turn :: rest) (by simp [State.withFetchWord, hschedule])

theorem completes_withFetchWord (s : State) (nbits w : Nat) :
    (s.withFetchWord nbits w).Completes (tableWord nbits w) :=
  ⟨nextTurn_withFetchWord s nbits w, rfl, rfl⟩

/-- The turn `withFetchWord` puts first is the one the step uses up. -/
theorem dropTurn_withFetchWord (s : State) (nbits w : Nat) :
    (s.withFetchWord nbits w).dropTurn = { s with phase := .busy (tableWord nbits w), rstN := true } := by
  cases hschedule : s.schedule <;> simp [State.withFetchWord, State.dropTurn, hschedule]

/-! ### What a command reads, and what it leaves unchanged -/

/-- MODINV does not read OPB (30_encoding.md R56). -/
theorem instrOutcome_congr_b {i : Instr} {b b' : Nat} (h : i ≠ .modinv → b = b') (w a m : Nat) :
    instrOutcome w i a b m = instrOutcome w i a b' m := by
  cases i with
  | modinv => rfl
  | modmul | montmul | modexp => rw [h (by decide)]

/-- Outside STATUS a read answers from IE and the registers alone (20_memory.md R35). -/
theorem busRead_congr_regs {s t : State} {a : Addr} (hie : t.ie = s.ie) (hstatus : offset a ≠ 0x00C)
    (hreg : ∀ x i, i < 64 → offset a = windowBase x + 4 * i → t.reg x = s.reg x) : busRead t a = busRead s a := by
  rcases target_cases a with ⟨ho, -⟩ | ⟨ho, -⟩ | ⟨ho, -⟩ | ⟨ho, -⟩ | ⟨ho, -⟩ | ⟨x, i, hi, ho, ht⟩ | ⟨ho, -⟩
  · rw [busRead_id ho, busRead_id ho]
  · rw [busRead_param ho, busRead_param ho]
  · rw [busRead_ctrl ho, busRead_ctrl ho, State.ctrlWord, State.ctrlWord, hie]
  · exact absurd ho hstatus
  · rw [busRead_cmd ho, busRead_cmd ho]
  · simp only [busRead, ht, State.windowWord, hreg x i hi ho]
  · rw [busRead_reserved ho, busRead_reserved ho]

/-- Everything but STATUS and the RES window reads after a completion as before (60_exceptions.md R77). -/
theorem busRead_complete {a : Addr} (hstatus : offset a ≠ 0x00C) (hres : ¬(0x400 ≤ offset a ∧ offset a < 0x500))
    (out : Completion) (s : State) : busRead (complete out s) a = busRead s a := by
  refine busRead_congr_regs (complete_ie out s) hstatus fun x i hi ho => complete_reg_operand ?_ out s
  rintro rfl
  simp only [windowBase] at ho
  omega

/-- After an error the RES window reads as before, too. -/
theorem busRead_complete_of_res_eq {out : Completion} {s : State} {a : Addr} (hstatus : offset a ≠ 0x00C)
    (hres : (complete out s).res = s.res) : busRead (complete out s) a = busRead s a := by
  refine busRead_congr_regs (complete_ie out s) hstatus fun x i _ _ => ?_
  by_cases hx : x = .res
  · rw [hx]
    exact hres
  · exact complete_reg_operand hx out s

/-! ### The obligations on the completion step -/

/-- Settles O14: the completion is the outcome's, and `complete` is the two ends written out. -/
theorem completionTakesOutcome : Obligations.CompletionTakesOutcome := by
  intro s c hc
  rw [step_of_completes hc]
  cases outcome 1024 c s.opa.toNat s.opb.toNat s.mod.toNat <;> rfl

/-- Settles O5, by what the word decodes to. -/
theorem stepRunsDecodedCommand : Obligations.StepRunsDecodedCommand := fun _ _ hc =>
  ⟨fun _ hi => step_eq_exec hc hi, fun _ hwhy => step_eq_finishErr_illegal hc (outcome_of_decode_illegal hwhy)⟩

/-- Settles O6: the placed word is about to complete, and using up its turn leaves the schedule that was there. -/
theorem fetchedWordRunsNext : Obligations.FetchedWordRunsNext := by
  intro s w i hdecode
  have hi : decode (tableWord 32 w) = .command i := Decoded.instr?_eq_some_iff.mp hdecode
  have hc := completes_withFetchWord s 32 w
  rw [step_eq_exec hc hi, dropTurn_withFetchWord, ← tableWord_32]
  exact ⟨hc, rfl⟩

/-- Settles O13: acceptance does not look at the word, and the completion of a word that encodes no command is that of
an illegal one. -/
theorem illegalWordsCompleteWithCode4 : Obligations.IllegalWordsCompleteWithCode4 := fun _ c hc =>
  ⟨fun hidle => busWrite_cmd_idle rfl hidle c, fun h => step_eq_finishErr_illegal h (outcome_of_illegal hc)⟩

/-- Settles O17: the outcome is a function of the operands, and it fixes the code and an OK result. -/
theorem outcomeReadsOnlyOperands : Obligations.OutcomeReadsOnlyOperands := by
  intro i s t s' t' hs ht hopa hopb hmod
  have hb : i ≠ .modinv → s.opb.toNat = t.opb.toNat := fun hi => congrArg BitVec.toNat (hopb hi)
  rw [exec_eq_complete, hopa, hmod, instrOutcome_congr_b hb] at hs
  rw [exec_eq_complete] at ht
  cases hs
  cases ht
  exact ⟨complete_errcode_congr _ s t, fun herr => complete_res_of_ok herr t⟩

/-- Settles O16: a command is a completion, which writes STATUS and, on OK, RES. -/
theorem commandFrame : Obligations.CommandFrame := by
  intro i s
  refine ⟨_, exec_eq_complete i s, ?_⟩
  generalize instrOutcome 1024 i s.opa.toNat s.opb.toNat s.mod.toNat = out
  obtain ⟨hopa, hopb, hmod, hie, hcoll, hrest, hphase, hdone⟩ := complete_frame out s
  refine ⟨hopa, hopb, hmod, hie, hcoll, hrest, hphase, hdone,
    fun a hstatus hres => busRead_complete hstatus hres out s, fun herr => ?_⟩
  have hres := complete_res_of_err herr
  exact ⟨hres, fun a hstatus => busRead_complete_of_res_eq hstatus hres⟩

end Sys2Proof.Machine
end

section
/-! The reference sequence of MODINV within the model's bound (42_modinv.md R72; log 9). -/

namespace Sys2Proof.Machine

/-- Settles O20: the answer within the model's bound is the gcd with its coefficient, and no larger bound changes it. -/
theorem euclidSequenceEnds : Obligations.EuclidSequenceEnds := by
  intro v m _
  refine ⟨euclid_fst v m, Int.emod_eq_emod_iff_emod_sub_eq_zero.mp (euclid_bezout v m), fun k hk => ?_⟩
  obtain ⟨c, hc⟩ := euclidLoop_ends (r0 := v) (bitlen m) (lt_two_pow_bitlen m) 1 0
  rw [hc k hk, euclid, hc _ le_rfl]

end Sys2Proof.Machine
end

section
/-! The host's turn (30_encoding.md R60): what the step does for each statement form, that a ready host always answers,
and why a step stops (70_reset_and_hazards.md R95; log 5). -/

namespace Sys2Proof.Machine

section HostTurn

variable {s : State} {a : Addr} {d mask : Word} {v l k : Nat}

/-! ### The step for each statement form -/

theorem runs_of_position {stmt : HostStmt} (hturn : s.nextTurn = .host) (hposition : s.host.position = k)
    (hstmt : s.host.program[k]? = some stmt) : s.Runs stmt :=
  ⟨hturn, by rw [State.hostStmt?, hposition, hstmt]⟩

/-- With reset released the host's turn runs its statement. -/
theorem step_of_runs {stmt : HostStmt} (h : s.Runs stmt) (hrst : s.rstN = true) :
    step s = runStmt stmt s.dropTurn := by
  obtain ⟨hturn, hstmt⟩ := h
  rw [step_host hturn]
  exact hostTurn_released hstmt hrst

theorem step_of_writes (h : s.Writes a d) : step s = .next (busWrite a d s.dropTurn).advanceHost :=
  step_of_runs h.left h.right

theorem step_of_reads (h : s.Runs (.rd a v)) (hrst : s.rstN = true) :
    step s = .next (s.dropTurn.assign v (busRead s a)).advanceHost :=
  step_of_runs h hrst

theorem step_of_label (h : s.Runs (.label l)) (hrst : s.rstN = true) : step s = .next s.dropTurn.advanceHost :=
  step_of_runs h hrst

theorem hostJump_declared (h : labelPositions l 0 s.host.program = [k]) : hostJump l s = .next (s.jumpHost k) := by
  rw [hostJump, h]

theorem hostBranch_of_assigned (hv : lookupVar v s.host.vars = some d) (z : Bool) (mask : Word) (l : Nat) :
    hostBranch z v mask l s = if ((d &&& mask) == 0) = z then hostJump l s else .next s.advanceHost := by
  rw [hostBranch, hv]

/-- `BNZ` with its variable assigned jumps, or goes on without a look at its label (log 5). -/
theorem step_of_bnz (h : s.Runs (.bnz v mask l)) (hrst : s.rstN = true) (hv : lookupVar v s.host.vars = some d) :
    step s = if d &&& mask ≠ 0 then hostJump l s.dropTurn else .next s.dropTurn.advanceHost := by
  rw [step_of_runs h hrst, runStmt, hostBranch_of_assigned (s := s.dropTurn) hv]
  simp only [beq_eq_false_iff_ne]

/-- `BZ` with its variable assigned jumps, or goes on without a look at its label (log 5). -/
theorem step_of_bz (h : s.Runs (.bz v mask l)) (hrst : s.rstN = true) (hv : lookupVar v s.host.vars = some d) :
    step s = if d &&& mask = 0 then hostJump l s.dropTurn else .next s.dropTurn.advanceHost := by
  rw [step_of_runs h hrst, runStmt, hostBranch_of_assigned (s := s.dropTurn) hv]
  simp only [beq_iff_eq]

/-! ### Which steps answer a next state -/

/-- Only the host can stop the machine. -/
theorem host_of_step_stops (h : ∀ t, step s ≠ .next t) : s.nextTurn = .host := by
  cases hturn : s.nextTurn with
  | host => rfl
  | assertReset => exact absurd (step_assertReset hturn) (h _)
  | releaseReset => exact absurd (step_releaseReset hturn) (h _)
  | engine =>
    rcases engineTurn_cases s.dropTurn with ⟨-, he⟩ | ⟨-, -, he⟩ | ⟨c, -, -, he⟩ <;>
      exact absurd ((step_engine hturn).trans he) (h _)

/-- A branch decided by `p` answers, if its label is declared once in case it jumps. -/
theorem exists_next_of_branch {p : Prop} [Decidable p] (h : p → ∃ k, labelPositions l 0 s.host.program = [k]) :
    ∃ t, (if p then hostJump l s else .next s.advanceHost) = .next t := by
  by_cases hp : p
  · obtain ⟨k, hk⟩ := h hp
    exact ⟨_, by rw [if_pos hp, hostJump_declared hk]⟩
  · exact ⟨_, if_neg hp⟩

theorem exists_next_of_ready (hturn : s.nextTurn = .host) (hrst : s.rstN = true) (hready : HostReady s) :
    ∃ t, step s = .next t := by
  cases hstmt : s.hostStmt? with
  | none => exact ⟨_, step_of_host_ended hturn hstmt⟩
  | some stmt =>
    have hruns : s.Runs stmt := ⟨hturn, hstmt⟩
    rw [HostReady, hstmt] at hready
    cases stmt with
    | wr a d => exact ⟨_, step_of_writes ⟨hruns, hrst⟩⟩
    | rd a v => exact ⟨_, step_of_reads hruns hrst⟩
    | label l => exact ⟨_, step_of_label hruns hrst⟩
    | bnz v mask l =>
      obtain ⟨d, hv, hlabel⟩ := hready
      rw [step_of_bnz hruns hrst hv]
      exact exists_next_of_branch (s := s.dropTurn) hlabel
    | bz v mask l =>
      obtain ⟨d, hv, hlabel⟩ := hready
      rw [step_of_bz hruns hrst hv]
      exact exists_next_of_branch (s := s.dropTurn) hlabel

/-! ### Why a step stops -/

/-- The statement at which the machine stops, and which of the two levels of `rst_n` it met. -/
theorem stmt_of_step_stops (h : ∀ t, step s ≠ .next t) :
    ∃ stmt, s.Runs stmt ∧
      ((s.rstN = true ∧ step s = runStmt stmt s.dropTurn) ∨ (s.rstN = false ∧ step s = heldStmt stmt s.dropTurn)) := by
  have hturn := host_of_step_stops h
  cases hstmt : s.hostStmt? with
  | none => exact absurd (step_of_host_ended hturn hstmt) (h _)
  | some stmt =>
    have hruns : s.Runs stmt := ⟨hturn, hstmt⟩
    cases hrst : s.rstN with
    | true => exact ⟨stmt, hruns, .inl ⟨rfl, step_of_runs hruns hrst⟩⟩
    | false => exact ⟨stmt, hruns, .inr ⟨rfl, step_of_runs_held hrst hruns⟩⟩

/-- The model refuses a bus transaction during reset, and nothing else (R95). -/
theorem transaction_of_step_refused {r : Refusal} (h : step s = .refused r) :
    s.rstN = false ∧ ∃ a, r = .transactionDuringReset a ∧ ((∃ d, s.Runs (.wr a d)) ∨ ∃ v, s.Runs (.rd a v)) := by
  obtain ⟨stmt, hruns, ⟨-, hrun⟩ | ⟨hrst, hheld⟩⟩ := stmt_of_step_stops (s := s) (by simp [h])
  · rw [h] at hrun
    cases stmt with
    | wr a d => nomatch hrun
    | rd a v => nomatch hrun
    | label l => nomatch hrun
    | bnz v mask l => exact absurd hrun.symm hostBranch_refused
    | bz v mask l => exact absurd hrun.symm hostBranch_refused
  · rw [h] at hheld
    refine ⟨hrst, ?_⟩
    cases stmt with
    | wr a d => cases hheld; exact ⟨a, rfl, .inl ⟨d, hruns⟩⟩
    | rd a v => cases hheld; exact ⟨a, rfl, .inr ⟨v, hruns⟩⟩
    | label l => nomatch hheld
    | bnz v mask l => nomatch hheld
    | bz v mask l => nomatch hheld

/-- The machine faults at a branch the host program gives no meaning to, and nowhere else (log 5). -/
theorem branch_of_step_fault {f : Fault} (h : step s = .fault f) :
    s.rstN = true ∧ ∃ v mask l, (s.Runs (.bnz v mask l) ∨ s.Runs (.bz v mask l)) ∧
      ((f = .hostVarUnset v ∧ lookupVar v s.host.vars = none) ∨
        (f = .hostLabelMissing l ∧ labelPositions l 0 s.host.program = []) ∨
        (f = .hostLabelAmbiguous l ∧ 2 ≤ (labelPositions l 0 s.host.program).length)) := by
  obtain ⟨stmt, hruns, ⟨hrst, hrun⟩ | ⟨-, hheld⟩⟩ := stmt_of_step_stops (s := s) (by simp [h])
  · rw [h] at hrun
    refine ⟨hrst, ?_⟩
    cases stmt with
    | wr a d => nomatch hrun
    | rd a v => nomatch hrun
    | label l => nomatch hrun
    | bnz v mask l => exact ⟨v, mask, l, .inl hruns, hostBranch_fault (z := false) (s := s.dropTurn) hrun.symm⟩
    | bz v mask l => exact ⟨v, mask, l, .inr hruns, hostBranch_fault (z := true) (s := s.dropTurn) hrun.symm⟩
  · rw [h] at hheld
    cases stmt <;> nomatch hheld

end HostTurn

/-! ### The obligations on the host's turn -/

/-- Settles O7, by the statement form. -/
theorem hostStatementsRun : Obligations.HostStatementsRun := by
  intro s hturn
  refine ⟨fun a d hstmt hrst => step_of_writes ⟨⟨hturn, hstmt⟩, hrst⟩, fun a v hstmt hrst => ?_,
    fun l hstmt hrst => step_of_label ⟨hturn, hstmt⟩ hrst, fun v mask l d k hstmt hrst hv hlabel => ?_,
    fun v mask l d k hstmt hrst hv hlabel => ?_, step_of_host_ended hturn⟩
  · exact ⟨_, step_of_reads ⟨hturn, hstmt⟩ hrst, SameBlock.refl s, rfl, rfl, rfl, rfl,
      lookupVar_assignVar_same v _ s.host.vars, fun v' hne => lookupVar_assignVar_ne hne _ s.host.vars⟩
  · rw [step_of_bnz ⟨hturn, hstmt⟩ hrst hv, hostJump_declared (s := s.dropTurn) hlabel, apply_ite Host.Outcome.next]
  · rw [step_of_bz ⟨hturn, hstmt⟩ hrst hv, hostJump_declared (s := s.dropTurn) hlabel, apply_ite Host.Outcome.next]

/-- Settles O8: a turn that is not the host's answers, a ready host's answers too, and each stop is read back to the
host statement it was met at. -/
theorem stepStopsOnlyAsListed : Obligations.StepStopsOnlyAsListed := by
  refine ⟨fun s hrst hready => ?_, fun s r => transaction_of_step_refused, fun s f => branch_of_step_fault⟩
  by_contra hstops
  have hturn := host_of_step_stops (not_exists.mp hstops)
  exact hstops (exists_next_of_ready hturn hrst hready)

end Sys2Proof.Machine
end

section
/-! The registers over every step (10_state.md section 2), the command in execution over every run in which the block
stays busy (10_state.md R30, 60_exceptions.md R77), and how such a run ends (70_reset_and_hazards.md R113; log 3). -/

namespace Sys2Proof.Machine

section Registers

variable {s t : State} {a : Addr} {c d : Word} {x : Reg}

/-! ### The events that change a register -/

/-- A bus write changes a register by the soft reset, or as a write to that register's own window while idle. -/
theorem write_of_reg_changes (hne : (busWrite a d s).reg x ≠ s.reg x) :
    (offset a = 0x008 ∧ d.getLsbD 1 = true) ∨
      (x ≠ .res ∧ s.phase = .idle ∧ windowBase x ≤ offset a ∧ offset a < windowBase x + 0x80) := by
  rcases busWrite_cases a d s with ⟨ho, hd, -⟩ | ⟨-, -, hw⟩ | ⟨-, hw⟩ | ⟨-, -, hw⟩ | ⟨-, -, hw⟩ |
    ⟨y, i, hy, hi, ho, hidle, hw⟩ | ⟨_, _, -, -, -, -, -, hw⟩ | ⟨-, hw⟩
  case inl => exact .inl ⟨ho, hd⟩
  case inr.inr.inr.inr.inr.inl =>
    by_cases hx : x = y
    · subst hx
      exact .inr ⟨hy, hidle, by omega, by omega⟩
    · exact absurd (by rw [hw, State.reg_setReg_ne _ _ _ _ hx]) hne
  all_goals exact absurd ((congrArg (State.reg · x) hw).trans (by cases x <;> rfl)) hne

/-- The only events that change a register: a reset, for RES a completion, for an operand register a write to its
window while idle. -/
theorem event_of_reg_changes (hstep : step s = .next t) (hne : t.reg x ≠ s.reg x) :
    s.Resets ∨ (x = .res ∧ ∃ c, s.Completes c) ∨
      (x ≠ .res ∧ ∃ a d, s.Writes a d ∧ s.phase = .idle ∧ windowBase x ≤ offset a ∧
        offset a < windowBase x + 0x80) := by
  rcases step_cases hstep with ⟨hturn, -⟩ | ⟨-, -, ht⟩ | ⟨hturn, hrst, -⟩ | ⟨hturn, hrst, -⟩ | ⟨-, -, -, ht⟩ |
    ⟨c, hc, ht⟩ | ⟨a, d, hw, ht⟩ | ⟨a, v, -, -, ht⟩ | ⟨-, -, -, k, ht⟩
  · exact .inl (.inr (.inl hturn))
  · exact absurd (by rw [ht, State.dropTurn_reg]) hne
  · exact .inl (.inr (.inr ⟨hrst, .inr hturn⟩))
  · exact .inl (.inr (.inr ⟨hrst, .inl hturn⟩))
  · exact absurd (by rw [ht, State.dropTurn_reg]) hne
  · by_cases hx : x = .res
    · exact .inr (.inl ⟨hx, c, hc⟩)
    · exact absurd (by rw [ht, complete_reg_operand hx, State.dropTurn_reg]) hne
  · rw [ht, State.advanceHost_reg, ← State.dropTurn_reg s] at hne
    rcases write_of_reg_changes hne with ⟨ho, hd⟩ | ⟨hx, hidle, hwindow⟩
    · exact .inl (.inl ⟨a, d, hw, ho, hd⟩)
    · exact .inr (.inr ⟨hx, a, d, hw, hidle, hwindow⟩)
  · exact absurd (by rw [ht, State.advanceHost_reg, State.assign_reg, State.dropTurn_reg]) hne
  · exact absurd (by rw [ht, State.jumpHost_reg, State.dropTurn_reg]) hne

theorem operandWrite_of_reg_changes (hstep : step s = .next t) (hreset : ¬s.Resets) (hx : x ≠ .res)
    (hne : t.reg x ≠ s.reg x) :
    ∃ a d, s.Writes a d ∧ s.phase = .idle ∧ windowBase x ≤ offset a ∧ offset a < windowBase x + 0x80 := by
  rcases event_of_reg_changes hstep hne with h | ⟨h, -⟩ | ⟨-, h⟩
  · exact absurd h hreset
  · exact absurd h hx
  · exact h

/-- A completion that changes RES is the OK completion of a command (60_exceptions.md R77, R78). -/
theorem command_of_res_changes (hstep : step s = .next t) (hc : s.Completes c) (hne : t.res ≠ s.res) :
    ∃ i, decode c = .command i ∧ t.errcode = 0 := by
  have ht := step_eq_of_completes hc hstep
  have hcode : t.errcode = 0 := by
    by_contra herr
    rw [ht] at herr hne
    exact hne (complete_res_of_err herr)
  cases hdecode : decode c with
  | command i => exact ⟨i, rfl, hcode⟩
  | illegal why =>
    rw [ht, outcome_of_decode_illegal hdecode] at hcode
    exact absurd hcode ErrCode.illegalCommand.bits_ne_zero

/-! ### The command in execution -/

/-- Two states execute the same command word on the same registers, at the same level of `rst_n`. -/
structure SameCommand (s t : State) : Prop where
  phase_eq : t.phase = s.phase
  reg_eq : ∀ x, t.reg x = s.reg x
  rstN_eq : t.rstN = s.rstN

theorem SameCommand.refl (s : State) : SameCommand s s := ⟨rfl, fun _ => rfl, rfl⟩

theorem SameCommand.trans {u : State} (hst : SameCommand s t) (htu : SameCommand t u) : SameCommand s u :=
  ⟨htu.phase_eq.trans hst.phase_eq, fun x => (htu.reg_eq x).trans (hst.reg_eq x), htu.rstN_eq.trans hst.rstN_eq⟩

/-- A step of a busy block that does not end its command keeps the word and the registers: the writes that would change
them collide (60_exceptions.md R76). -/
theorem sameCommand_step (hbusy : s.phase = .busy c) (hrst : s.rstN = true)
    (hgoing : ¬(s.Resets ∨ ∃ c, s.Completes c)) (hstep : step s = .next t) : SameCommand s t where
  phase_eq := ((phase_of_busy hstep hbusy).resolve_left hgoing).trans hbusy.symm
  reg_eq x := by
    by_contra hne
    rcases event_of_reg_changes hstep hne with hreset | ⟨-, hc⟩ | ⟨-, _, _, -, hidle, -⟩
    · exact hgoing (.inl hreset)
    · exact hgoing (.inr hc)
    · nomatch hbusy.symm.trans hidle
  rstN_eq := by
    cases ht : t.rstN with
    | true => exact hrst.symm
    | false =>
      rcases asserted_of_rstN_low hstep ht with hturn | hlow
      · exact absurd (.inl (.inr (.inl hturn))) hgoing
      · exact hlow.symm

/-- As long as the block stays busy, any number of steps keep the command. -/
theorem sameCommand_run {k : Nat} (hbusy : s.phase = .busy c) (hrst : s.rstN = true)
    (hstays : ∀ j u, j ≤ k → runFor j s = .next u → u.busy = true) (hrun : runFor k s = .next t) :
    SameCommand s t := by
  induction k generalizing s with
  | zero =>
    cases hrun
    exact SameCommand.refl _
  | succ k ih =>
    obtain ⟨u, hstep, hrun⟩ := runFor_succ_inv hrun
    have hubusy : u.busy = true := hstays 1 u (by omega) (runFor_succ_next hstep 0)
    have hgoing : ¬(s.Resets ∨ ∃ c, s.Completes c) := fun hend => by
      simp [busy_of_ending hstep hend] at hubusy
    have hsame := sameCommand_step hbusy hrst hgoing hstep
    refine hsame.trans (ih (hsame.phase_eq.trans hbusy) (hsame.rstN_eq.trans hrst) (fun j w hj hw => ?_) hrun)
    exact hstays (j + 1) w (by omega) ((runFor_succ_next hstep j).trans hw)

/-! ### A schedule without turns of the reset input -/

/-- Every step that answers uses up one turn. -/
theorem schedule_of_step (hstep : step s = .next t) : t.schedule = s.schedule.tail := by
  rcases step_cases hstep with ⟨-, rfl⟩ | ⟨-, -, rfl⟩ | ⟨-, -, rfl⟩ | ⟨-, -, rfl⟩ | ⟨-, -, -, rfl⟩ | ⟨c, -, rfl⟩ |
    ⟨a, d, -, rfl⟩ | ⟨a, v, -, -, rfl⟩ | ⟨-, -, -, k, rfl⟩
  case inr.inr.inr.inr.inr.inl => rw [complete_schedule, State.dropTurn_schedule]
  case inr.inr.inr.inr.inr.inr.inl =>
    rw [State.advanceHost_schedule, busWrite_schedule, State.dropTurn_schedule]
  all_goals rfl

theorem noResetTurns_step (hs : NoResetTurns s) (hstep : step s = .next t) : NoResetTurns t := by
  intro turn hmem
  rw [schedule_of_step hstep] at hmem
  exact hs turn (List.mem_of_mem_tail hmem)

theorem nextTurn_of_noResetTurns (hs : NoResetTurns s) : s.nextTurn = .host ∨ s.nextTurn = .engine := by
  cases hschedule : s.schedule with
  | nil =>
    rw [nextTurn_nil hschedule]
    split
    · exact .inl rfl
    · exact .inr rfl
  | cons turn rest =>
    rw [nextTurn_cons hschedule]
    exact hs turn (by simp [hschedule])

/-- With reset released only the fall of `rst_n` is a hardware reset (70_reset_and_hazards.md R94). -/
theorem not_hardResets_of_released (hrst : s.rstN = true) (hturn : s.nextTurn ≠ .assertReset) : ¬s.HardResets := by
  rintro (h | ⟨hlow, -⟩)
  · exact hturn h
  · exact Bool.false_ne_true (hlow.symm.trans hrst)

/-- A host's turn that is no soft reset does not end the command in execution. -/
theorem not_ending_of_host (hrst : s.rstN = true) (hturn : s.nextTurn = .host) (hsoft : ¬s.SoftResets) :
    ¬(s.Resets ∨ ∃ c, s.Completes c) := by
  rintro ((h | h) | ⟨c, hengine, -, -⟩)
  · exact hsoft h
  · exact not_hardResets_of_released hrst (by simp [hturn]) h
  · nomatch hturn.symm.trans hengine

/-! ### How a busy block ends -/

/-- The next step is the end of the command `c` in execution: its completion, a soft reset, or a fault of the host's
program, which stops the machine. -/
def EndsNext (c : Word) (s : State) : Prop :=
  (s.Completes c ∧ ∃ u, step s = .next u ∧ u.phase = .idle ∧ u.done = true) ∨
    (s.SoftResets ∧ ∃ u, step s = .next u ∧ u.phase = .idle ∧ u.done = false) ∨
    ∃ f, step s = .fault f

theorem endsNext_of_engine (hbusy : s.phase = .busy c) (hrst : s.rstN = true) (hturn : s.nextTurn = .engine) :
    EndsNext c s := by
  have hc : s.Completes c := ⟨hturn, hrst, hbusy⟩
  have hflags := hasFlags_of_completes hc (step_of_completes hc)
  exact .inl ⟨hc, _, step_of_completes hc, hflags.phase_eq, hflags.done_eq⟩

/-- A host's turn ends the command, or it goes on with one turn less. -/
theorem endsNext_or_sameCommand_of_host (hbusy : s.phase = .busy c) (hrst : s.rstN = true)
    (hturn : s.nextTurn = .host) : EndsNext c s ∨ ∃ u, step s = .next u ∧ SameCommand s u := by
  cases hstep : step s with
  | fault f => exact .inl (.inr (.inr ⟨f, hstep⟩))
  | refused r =>
    obtain ⟨hlow, -⟩ := transaction_of_step_refused hstep
    exact absurd (hlow.symm.trans hrst) Bool.false_ne_true
  | next u =>
    by_cases hsoft : s.SoftResets
    · have hreset := atResetValues_of_softResets hsoft hstep
      exact .inl (.inr (.inl ⟨hsoft, u, hstep, hreset.phase_eq, hreset.done_eq⟩))
    · exact .inr ⟨u, rfl, sameCommand_step hbusy hrst (not_ending_of_host hrst hturn hsoft) hstep⟩

/-- The command ends at the latest when the schedule has run out, for then the engine has the turn. -/
theorem exists_run_endsNext {schedule : List Turn} (hschedule : s.schedule = schedule) (hbusy : s.phase = .busy c)
    (hrst : s.rstN = true) (hturns : NoResetTurns s) :
    ∃ k t, k ≤ schedule.length ∧ runFor k s = .next t ∧ t.phase = .busy c ∧ EndsNext c t := by
  induction schedule generalizing s with
  | nil =>
    have hturn := nextTurn_of_busy_exhausted hschedule hbusy
    exact ⟨0, s, le_rfl, rfl, hbusy, endsNext_of_engine hbusy hrst hturn⟩
  | cons turn rest ih =>
    rcases nextTurn_of_noResetTurns hturns with hturn | hturn
    · rcases endsNext_or_sameCommand_of_host hbusy hrst hturn with hends | ⟨u, hstep, hsame⟩
      · exact ⟨0, s, Nat.zero_le _, rfl, hbusy, hends⟩
      · have hrest : u.schedule = rest := by rw [schedule_of_step hstep, hschedule, List.tail_cons]
        obtain ⟨k, t, hk, hrun, hend⟩ := ih hrest (hsame.phase_eq.trans hbusy) (hsame.rstN_eq.trans hrst)
          (noResetTurns_step hturns hstep)
        exact ⟨k + 1, t, Nat.succ_le_succ hk, (runFor_succ_next hstep k).trans hrun, hend⟩
    · exact ⟨0, s, Nat.zero_le _, rfl, hbusy, endsNext_of_engine hbusy hrst hturn⟩

end Registers

/-! ### The obligations on the registers and on the command in execution -/

/-- Settles O52: RES by the outcome of the completion, each operand register by the range of its window. -/
theorem registersChangeOnlyAsListed : Obligations.RegistersChangeOnlyAsListed := by
  intro s t hstep hreset
  refine ⟨fun hne => ?_, operandWrite_of_reg_changes (x := .opa) hstep hreset (by decide),
    operandWrite_of_reg_changes (x := .opb) hstep hreset (by decide),
    operandWrite_of_reg_changes (x := .mod) hstep hreset (by decide)⟩
  rcases event_of_reg_changes (x := .res) hstep hne with h | ⟨-, c, hc⟩ | ⟨h, -⟩
  · exact absurd h hreset
  · obtain ⟨i, hi, herr⟩ := command_of_res_changes hstep hc hne
    exact ⟨c, i, hc, hi, herr⟩
  · exact absurd rfl h

/-- Settles O53: the run keeps the word and the operands, so the completion takes their outcome. -/
theorem completionUsesAcceptedOperands : Obligations.CompletionUsesAcceptedOperands := by
  intro k s t c hbusy hrst hstays hrun
  have hsame := sameCommand_run hbusy hrst hstays hrun
  have hopa : t.opa = s.opa := hsame.reg_eq .opa
  have hopb : t.opb = s.opb := hsame.reg_eq .opb
  have hmod : t.mod = s.mod := hsame.reg_eq .mod
  have hres : t.res = s.res := hsame.reg_eq .res
  have htbusy : t.phase = .busy c := hsame.phase_eq.trans hbusy
  refine ⟨htbusy, hopa, hopb, hmod, hres, fun hturn => ?_⟩
  refine ⟨_, step_of_completes ⟨hturn, hsame.rstN_eq.trans hrst, htbusy⟩, ?_⟩
  rw [hopa, hopb, hmod]
  cases outcome 1024 c s.opa.toNat s.opb.toNat s.mod.toNat with
  | ok r => exact ⟨rfl, rfl⟩
  | err code => exact ⟨hres, rfl⟩

/-- Settles O54, by induction on the schedule. -/
theorem busyBlockCompletesUnlessHostStopsIt : Obligations.BusyBlockCompletesUnlessHostStopsIt :=
  fun _ _ hbusy hrst hturns => exists_run_endsNext rfl hbusy hrst hturns

end Sys2Proof.Machine
end

section
/-! Straight-line host programs on an idle block (30_encoding.md R61): the statements ahead run one turn each, `LD` and
`LDLO` write the words of a register in ascending order, `GET` and `GETLO` read them. -/

namespace Sys2Proof.Machine

/-! ### The turns and statements of a straight-line program -/

/-- A sequence of states in which each is the step of the one before is a run. -/
theorem runFor_of_steps {trace : Nat → State} {k : Nat} (h : ∀ i < k, step (trace i) = .next (trace (i + 1))) :
    runFor k (trace 0) = .next (trace k) := by
  induction k with
  | zero => rfl
  | succ k ih =>
    rw [runFor_add (ih fun i hi => h i (by omega)), runFor_succ_next (h k (by omega)), runFor_zero]

section Ahead

variable {s : State}

/-- An idle block with only host turns left gives every turn to the host (log 3). -/
theorem nextTurn_of_onlyHostTurns (hidle : s.phase = .idle) (hrst : s.rstN = true) (hturns : OnlyHostTurns s) :
    s.nextTurn = .host := by
  cases hschedule : s.schedule with
  | nil =>
    rw [nextTurn_nil hschedule, hrst, State.busy_of_idle hidle]
    rfl
  | cons turn rest =>
    rw [nextTurn_cons hschedule]
    exact hturns turn (by simp [hschedule])

theorem stmt_of_programAhead {stmts : List HostStmt} {i : Nat} (h : ProgramAhead s stmts) (hi : i < stmts.length) :
    s.host.program[s.host.position + i]? = some stmts[i] := by
  rw [← List.getElem?_drop]
  exact List.prefix_iff_getElem?.mp h i hi

/-- The host's statement after `i` turns of a straight-line run. -/
theorem runs_of_programAhead {stmts : List HostStmt} {t : State} {i : Nat} (hidle : t.phase = .idle)
    (hrst : t.rstN = true) (hturns : OnlyHostTurns s) (hahead : ProgramAhead s stmts) (hi : i < stmts.length)
    (hprogram : t.host.program = s.host.program) (hposition : t.host.position = s.host.position + i)
    (hschedule : t.schedule = s.schedule.drop i) : t.Runs stmts[i] := by
  have honly : OnlyHostTurns t := fun turn hmem => hturns turn (List.mem_of_mem_drop (hschedule ▸ hmem))
  refine runs_of_position (nextTurn_of_onlyHostTurns hidle hrst honly) hposition ?_
  rw [hprogram]
  exact stmt_of_programAhead hahead hi

end Ahead

/-! ### The words of a register written in ascending order -/

/-- The register with words 0 to `k - 1` replaced by those of `n`. -/
def withLowWords (x : Operand) (n : Nat) : (k : Nat) → Operand
  | 0 => x
  | k + 1 => setWord (withLowWords x n k) k (natWord n k)

theorem word_withLowWords (x : Operand) (n k : Nat) {j : Nat} (hj : j < 32) :
    word (withLowWords x n k) j = if j < k then natWord n j else word x j := by
  induction k with
  | zero => rfl
  | succ k ih =>
    rw [withLowWords]
    by_cases hjk : j = k
    · rw [hjk, word_setWord_same _ _ _ (hjk ▸ hj), if_pos (Nat.lt_succ_self k)]
    · rw [word_setWord_ne _ _ _ _ hj hjk, ih]
      simp only [Nat.lt_succ_iff_lt_or_eq, hjk, or_false]

/-- With the words from `k` on those of `n` too, the register holds `n`. -/
theorem withLowWords_eq_ofNat {x : Operand} {n k : Nat} (h : ∀ j, k ≤ j → j < 32 → word x j = natWord n j) :
    withLowWords x n k = BitVec.ofNat 1024 n := by
  refine operand_ext _ _ fun j hj => ?_
  rw [word_withLowWords x n k hj, ← natWord_eq_word n j hj]
  split
  next => rfl
  next hjk => exact h j (by omega) hj

theorem natWord_eq_zero {n j : Nat} (h : n < 2 ^ (32 * j)) : natWord n j = 0 := by
  rw [natWord, Nat.div_eq_of_lt h]
  rfl

/-- Stated at every width: at the numeral 1024 the unifier would try to evaluate `2 ^ 1024`. -/
theorem toNat_ofNat_of_lt {w n : Nat} (h : n < 2 ^ w) : (BitVec.ofNat w n).toNat = n := by
  rw [BitVec.toNat_ofNat, Nat.mod_eq_of_lt h]

/-! ### How many words `LDLO` writes -/

theorem bitlen_le_mul_lowWords (n : Nat) : bitlen n ≤ 32 * lowWords n := by
  unfold lowWords
  omega

theorem natWord_eq_zero_of_lowWords_le {n j : Nat} (h : lowWords n ≤ j) : natWord n j = 0 := by
  have hbits := bitlen_le_mul_lowWords n
  exact natWord_eq_zero (lt_two_pow_of_bitlen_le (by omega))

theorem bitlen_le_of_lt {n k : Nat} (h : n < 2 ^ k) : bitlen n ≤ k := by
  unfold bitlen
  split_ifs with hn
  · exact Nat.zero_le k
  · exact (Nat.log2_lt hn).mpr h

theorem lowWords_le {n : Nat} (h : n < 2 ^ 1024) : lowWords n ≤ 32 := by
  have hbits := bitlen_le_of_lt h
  unfold lowWords
  omega

/-! ### The run of a load -/

section Load

variable {s : State} {x : Reg} {n k i : Nat}

/-- The state after the first `k` writes of a load: the RES window ignores them (20_memory.md R39). -/
def loaded (s : State) (x : Reg) (n k : Nat) : State :=
  { (if x = .res then s else s.setReg x (withLowWords (s.reg x) n k)) with
    host := { s.host with position := s.host.position + k }
    schedule := s.schedule.drop k }

theorem loaded_zero (s : State) (x : Reg) (n : Nat) : loaded s x n 0 = s := by
  simp [loaded, withLowWords]

theorem loaded_phase (s : State) (x : Reg) (n k : Nat) : (loaded s x n k).phase = s.phase := by
  cases x <;> rfl

theorem loaded_rstN (s : State) (x : Reg) (n k : Nat) : (loaded s x n k).rstN = s.rstN := by
  cases x <;> rfl

/-- The next write of the load, at the block. -/
theorem busWrite_loaded (hidle : s.phase = .idle) (hi : i < 32) :
    (busWrite (windowAddr x i) (natWord n i) (loaded s x n i).dropTurn).advanceHost = loaded s x n (i + 1) := by
  have hidle' : (loaded s x n i).dropTurn.phase = .idle := (loaded_phase s x n i).trans hidle
  cases x with
  | res =>
    rw [busWrite_window _ _ _ _ (by omega), windowWrite_res]
    simp [loaded, State.dropTurn, State.advanceHost, Nat.add_assoc]
  | opa | opb | mod =>
    rw [busWrite_window_idle hidle' (by decide) hi]
    simp [loaded, State.dropTurn, State.advanceHost, State.setReg, State.reg, withLowWords, Nat.add_assoc]

theorem loadWords_length (x : Reg) (n k : Nat) : (loadWords x n k).length = k := by
  simp [loadWords]

theorem step_loaded (hidle : s.phase = .idle) (hrst : s.rstN = true) (hturns : OnlyHostTurns s)
    (hahead : ProgramAhead s (loadWords x n k)) (hk : k ≤ 32) (hi : i < k) :
    step (loaded s x n i) = .next (loaded s x n (i + 1)) := by
  have hlen : i < (loadWords x n k).length := by rwa [loadWords_length]
  have hrst' : (loaded s x n i).rstN = true := (loaded_rstN s x n i).trans hrst
  have hruns := runs_of_programAhead (t := loaded s x n i) ((loaded_phase s x n i).trans hidle) hrst' hturns hahead hlen
    rfl rfl rfl
  have hstmt : (loadWords x n k)[i] = .wr (windowAddr x i) (natWord n i) := by simp [loadWords]
  rw [hstmt] at hruns
  rw [step_of_writes ⟨hruns, hrst'⟩, busWrite_loaded hidle (by omega)]

theorem runFor_loadWords (hidle : s.phase = .idle) (hrst : s.rstN = true) (hturns : OnlyHostTurns s)
    (hahead : ProgramAhead s (loadWords x n k)) (hk : k ≤ 32) : runFor k s = .next (loaded s x n k) := by
  have hrun := runFor_of_steps (trace := loaded s x n) fun i hi => step_loaded hidle hrst hturns hahead hk hi
  rwa [loaded_zero] at hrun

theorem loaded_operand (hx : x ≠ .res) (s : State) (n k : Nat) :
    loaded s x n k = { s.setReg x (withLowWords (s.reg x) n k) with
      host := { s.host with position := s.host.position + k }
      schedule := s.schedule.drop k } := by
  rw [loaded, if_neg hx]

theorem loaded_reg (hx : x ≠ .res) (s : State) (n k : Nat) :
    (loaded s x n k).reg x = withLowWords (s.reg x) n k := by
  cases x with
  | res => exact absurd rfl hx
  | opa | opb | mod => rfl

end Load

/-! ### The run of a read -/

section Read

variable {s : State} {k i : Nat}

/-- The host's variables after reading words 0 to `k - 1` of `x` into `v_0`, `v_1`, … (log 16). -/
def readInto (x : Operand) (v : Nat) (vars : List (Nat × Word)) : (k : Nat) → List (Nat × Word)
  | 0 => vars
  | k + 1 => assignVar (v + k) (word x k) (readInto x v vars k)

theorem lookupVar_readInto (x : Operand) (v : Nat) (vars : List (Nat × Word)) {j k : Nat} (hj : j < k) :
    lookupVar (v + j) (readInto x v vars k) = some (word x j) := by
  induction k with
  | zero => omega
  | succ k ih =>
    rw [readInto]
    by_cases hjk : j = k
    · rw [hjk, lookupVar_assignVar_same]
    · rw [lookupVar_assignVar_ne (by omega), ih (by omega)]

/-- The number a read leaves is the register's low words (30_encoding.md R61). -/
theorem hostValue_of_words {vars : List (Nat × Word)} {x : Operand} {v k : Nat}
    (h : ∀ j < k, lookupVar (v + j) vars = some (word x j)) : hostValue vars v k = x.toNat % 2 ^ (32 * k) := by
  induction k with
  | zero => rw [hostValue, Nat.mul_zero, Nat.pow_zero, Nat.mod_one]
  | succ k ih =>
    have hpow : 2 ^ (32 * (k + 1)) = 2 ^ (32 * k) * 2 ^ 32 := by rw [← Nat.pow_add, Nat.mul_succ]
    rw [hostValue, ih fun j hj => h j (by omega), h k (by omega), Option.getD_some, word_toNat, hpow, Nat.mod_mul,
      Nat.mul_comm (2 ^ (32 * k))]

/-- The state after the first `k` reads. -/
def readState (s : State) (v k : Nat) : State :=
  { s with
    host := { s.host with position := s.host.position + k, vars := readInto s.res v s.host.vars k }
    schedule := s.schedule.drop k }

theorem step_readState {v : Nat} (hidle : s.phase = .idle) (hrst : s.rstN = true)
    (hturns : OnlyHostTurns s) (hahead : ProgramAhead s (readWords k v)) (hk : k ≤ 32) (hi : i < k) :
    step (readState s v i) = .next (readState s v (i + 1)) := by
  have hlen : i < (readWords k v).length := by simpa [readWords] using hi
  have hruns := runs_of_programAhead (t := readState s v i) hidle hrst hturns hahead hlen rfl rfl rfl
  have hstmt : (readWords k v)[i] = .rd (windowAddr .res i) (v + i) := by simp [readWords]
  rw [hstmt] at hruns
  rw [step_of_reads hruns hrst, busRead_window _ _ _ (by omega)]
  simp [readState, readInto, State.dropTurn, State.assign, State.advanceHost, State.reg, Nat.add_assoc]

theorem runFor_readWords {v : Nat} (hidle : s.phase = .idle) (hrst : s.rstN = true) (hturns : OnlyHostTurns s)
    (hahead : ProgramAhead s (readWords k v)) (hk : k ≤ 32) : runFor k s = .next (readState s v k) :=
  runFor_of_steps (trace := readState s v) fun _ hi => step_readState hidle hrst hturns hahead hk hi

end Read

/-! ### The obligations on the pseudo-instructions -/

/-- Settles O57: all 32 words are replaced by those of the number. -/
theorem loadPseudoWritesRegister : Obligations.LoadPseudoWritesRegister := by
  intro s x n hidle hrst hturns hahead
  have hword : withLowWords (s.reg x) n 32 = BitVec.ofNat 1024 n := withLowWords_eq_ofNat fun j h32 hj => by omega
  rw [runFor_loadWords (k := 32) hidle hrst hturns hahead le_rfl, loaded, hword]

/-- Settles O58: the words from `lowWords n` on are not written, and those of `n` are 0. -/
theorem loadLowKeepsUpperWords : Obligations.LoadLowKeepsUpperWords := by
  intro s x n hidle hrst hturns hx hn hahead
  have hrun := runFor_loadWords hidle hrst hturns hahead (lowWords_le hn)
  refine ⟨_, hrun, ?_, fun j hlow hj => ?_, fun hzero => ?_⟩
  · rw [loaded_reg hx, loaded_operand hx]
  · rw [loaded_reg hx, word_withLowWords _ _ _ hj, if_neg (by omega)]
  · have hupper : ∀ j, lowWords n ≤ j → j < 32 → word (s.reg x) j = natWord n j := fun j hlow hj =>
      (hzero j hlow hj).trans (natWord_eq_zero_of_lowWords_le hlow).symm
    rw [loaded_reg hx, withLowWords_eq_ofNat hupper]
    exact toNat_ofNat_of_lt hn

/-- Settles O59: each read assigns one word of RES, and the low words of a number are the number when it is short. -/
theorem getPseudoReadsResult : Obligations.GetPseudoReadsResult := by
  intro s k v hk hidle hrst hturns hprogram
  have hahead : ProgramAhead s (readWords k v) := by
    rcases hprogram with hgetlo | ⟨rfl, hget⟩
    · exact hgetlo
    · exact hget
  have hvalue : hostValue (readState s v k).host.vars v k = s.res.toNat % 2 ^ (32 * k) :=
    hostValue_of_words fun j hj => lookupVar_readInto s.res v s.host.vars hj
  refine ⟨_, runFor_readWords hidle hrst hturns hahead hk, SameBlock.refl s, rfl, hvalue, ?_⟩
  rw [hvalue, Nat.mod_eq_iff_lt (by positivity)]

end Sys2Proof.Machine
end

section
/-! A host that works while a command executes: the race of an operand write with the completion (20_memory.md R46,
60_exceptions.md R86), and the `WAITDONE` loop (30_encoding.md R61, 70_reset_and_hazards.md R113; log 3). -/

namespace Sys2Proof.Machine

/-! ### The race of an operand write with the completion -/

section Race

variable {s : State} {c d : Word} {x : Reg} {i : Nat}

/-- The outcome of the word `c` on the operands the state holds (60_exceptions.md R78). -/
abbrev outcomeIn (c : Word) (s : State) : Completion := outcome 1024 c s.opa.toNat s.opb.toNat s.mod.toNat

/-- `t` shows the end of the command `c` as it was in execution in `s`. -/
structure HoldsResultOf (c : Word) (s t : State) : Prop where
  res_eq : t.res = (complete (outcomeIn c s) s).res
  errcode_eq : t.errcode = (complete (outcomeIn c s) s).errcode
  done_eq : t.done = true

/-- An operand write while busy collides, and the host goes on. -/
theorem step_of_operandWrite_busy (hw : s.Writes (windowAddr x i) d) (hbusy : s.phase = .busy c) (hx : x ≠ .res)
    (hi : i < 32) : step s = .next (collide s.dropTurn).advanceHost := by
  rw [step_of_writes hw, busWrite_window_busy (s := s.dropTurn) hbusy hx (by omega)]

/-- An operand write while idle replaces its word. -/
theorem step_of_operandWrite_idle (hw : s.Writes (windowAddr x i) d) (hidle : s.phase = .idle) (hx : x ≠ .res)
    (hi : i < 32) : step s = .next (s.dropTurn.setReg x (setWord (s.reg x) i d)).advanceHost := by
  rw [step_of_writes hw, busWrite_window_idle (s := s.dropTurn) hidle hx hi, State.dropTurn_reg]

/-- A completion leaves the host where it was, about to write. -/
theorem writes_of_complete {a : Addr} {rest : List Turn} (hschedule : s.schedule = .host :: rest) (hrst : s.rstN = true)
    (hstmt : s.hostStmt? = some (.wr a d)) (out : Completion) : (complete out s).Writes a d := by
  refine ⟨⟨nextTurn_cons ((complete_schedule out s).trans hschedule), ?_⟩, (complete_rstN out s).trans hrst⟩
  rw [State.hostStmt?, complete_host]
  exact hstmt

/-- The write first: it collides, and the completion follows. -/
theorem exists_run_write_completion (hschedule : s.schedule = [.host, .engine]) (hbusy : s.phase = .busy c)
    (hrst : s.rstN = true) (hx : x ≠ .res) (hi : i < 32) (hstmt : s.hostStmt? = some (.wr (windowAddr x i) d)) :
    ∃ t, runFor 2 s = .next t ∧ t.coll = true ∧ t.reg x = s.reg x ∧ HoldsResultOf c s t := by
  have hcollision := step_of_operandWrite_busy ⟨⟨nextTurn_cons hschedule, hstmt⟩, hrst⟩ hbusy hx hi
  have hturn : (collide s.dropTurn).advanceHost.nextTurn = .engine := nextTurn_cons (l := []) (by simp [hschedule])
  have hcompletion : step (collide s.dropTurn).advanceHost =
      .next (complete (outcomeIn c s) (collide s.dropTurn).advanceHost.dropTurn) :=
    step_of_completes ⟨hturn, hrst, hbusy⟩
  refine ⟨_, (runFor_succ_next hcollision 1).trans (runFor_succ_next hcompletion 0), ?_, ?_, ?_⟩
  · rw [complete_coll]
    rfl
  · rw [complete_reg_operand hx, State.dropTurn_reg, State.advanceHost_reg, collide_reg, State.dropTurn_reg]
  · have hres : (collide s.dropTurn).advanceHost.dropTurn.res = s.res := rfl
    exact ⟨complete_res_congr hres _, complete_errcode_congr _ _ _, complete_done _ _⟩

/-- The completion first: the write finds the block idle and is accepted. -/
theorem exists_run_completion_write (hschedule : s.schedule = [.engine, .host]) (hbusy : s.phase = .busy c)
    (hrst : s.rstN = true) (hx : x ≠ .res) (hi : i < 32) (hstmt : s.hostStmt? = some (.wr (windowAddr x i) d)) :
    ∃ t, runFor 2 s = .next t ∧ t.coll = s.coll ∧ word (t.reg x) i = d ∧ HoldsResultOf c s t := by
  have hcompletion : step s = .next (complete (outcomeIn c s) s.dropTurn) :=
    step_of_completes ⟨nextTurn_cons hschedule, hrst, hbusy⟩
  have hschedule' : s.dropTurn.schedule = [.host] := by rw [State.dropTurn_schedule, hschedule, List.tail_cons]
  have hwrite := step_of_operandWrite_idle (writes_of_complete hschedule' hrst hstmt (outcomeIn c s))
    (complete_phase _ _) hx hi
  refine ⟨_, (runFor_succ_next hcompletion 1).trans (runFor_succ_next hwrite 0), ?_, ?_, ?_, ?_, ?_⟩
  · rw [State.advanceHost_coll, State.setReg_coll, State.dropTurn_coll, complete_coll, State.dropTurn_coll]
  · rw [State.advanceHost_reg, State.reg_setReg_same, word_setWord_same _ _ _ hi]
  · rw [State.advanceHost_res, setReg_res hx, State.dropTurn_res]
    exact complete_res_congr (State.dropTurn_res s) _
  · rw [State.advanceHost_errcode, State.setReg_errcode, State.dropTurn_errcode]
    exact complete_errcode_congr _ _ _
  · rw [State.advanceHost_done, State.setReg_done, State.dropTurn_done, complete_done]

end Race

/-- Settles O56, by the two runs: what the write does depends on the order, what the completion leaves does not. -/
theorem bothOrdersOfARaceAdmitted : Obligations.BothOrdersOfARaceAdmitted := by
  intro s c x i d hbusy hrst hx hi hstmt
  obtain ⟨t, htrun, htcoll, htreg, htresult⟩ :=
    exists_run_write_completion (s := { s with schedule := [.host, .engine] }) rfl hbusy hrst hx hi hstmt
  obtain ⟨u, hurun, hucoll, hureg, huresult⟩ :=
    exists_run_completion_write (s := { s with schedule := [.engine, .host] }) rfl hbusy hrst hx hi hstmt
  refine ⟨t, u, htrun, hurun, htcoll, htreg.trans ?_, hucoll, hureg, ?_, ?_, htresult.done_eq, huresult.done_eq⟩
  · cases x <;> rfl
  · have hres := complete_res_congr (s := { s with schedule := [.host, .engine] })
      (t := { s with schedule := [.engine, .host] }) rfl (outcomeIn c s)
    exact htresult.res_eq.trans (hres.trans huresult.res_eq.symm)
  · exact htresult.errcode_eq.trans ((complete_errcode_congr _ _ _).trans huresult.errcode_eq.symm)

/-! ### The `WAITDONE` loop -/

/-- The program declares the loop of `WAITDONE` once, at its statement `p` (30_encoding.md R61). -/
structure WaitLoopAt (program : List HostStmt) (p v l : Nat) : Prop where
  label_at : program[p]? = some (.label l)
  read_at : program[p + 1]? = some (.rd 0x00C v)
  branch_at : program[p + 2]? = some (.bz v 0x2 l)
  target : labelPositions l 0 program = [p]

/-- Where the host stands in the loop. The number is the turns it needs to leave the loop once DONE is 1: most of all at
the branch with DONE read as 0, which goes back to the label. -/
inductive StandsAt (p v : Nat) (s : State) : (turns : Nat) → Prop
  | label (position : s.host.position = p) : StandsAt p v s 3
  | read (position : s.host.position = p + 1) : StandsAt p v s 2
  | leaving (d : Word) (position : s.host.position = p + 2) (assigned : lookupVar v s.host.vars = some d)
      (bit : d &&& 0x2 ≠ 0) (done : s.done = true) : StandsAt p v s 1
  | repeating (d : Word) (position : s.host.position = p + 2) (assigned : lookupVar v s.host.vars = some d)
      (bit : d &&& 0x2 = 0) : StandsAt p v s 4

/-- The host is in the loop, with reset released for good. -/
structure Polls (p v l : Nat) (s : State) (turns : Nat) : Prop where
  loop : WaitLoopAt s.host.program p v l
  released : s.rstN = true
  noReset : NoResetTurns s
  stands : StandsAt p v s turns

theorem SameBlock.outcomeIn_eq {s t : State} (h : SameBlock s t) (c : Word) : outcomeIn c t = outcomeIn c s := by
  obtain ⟨hopa, hopb, hmod, -⟩ := h
  rw [outcomeIn, hopa, hopb, hmod]

/-- The mask of `WAITDONE` is the bit DONE (30_encoding.md R61, 10_state.md R22). -/
theorem and_two_eq_zero_iff (d : Word) : d &&& 0x2 = 0 ↔ d.getLsbD 1 = false := by
  have hmask : (0x2 : Word) = BitVec.twoPow 32 1 := by decide
  rw [hmask, BitVec.and_twoPow]
  cases d.getLsbD 1 <;> decide

theorem statusWord_and_two_eq_zero_iff (s : State) : s.statusWord &&& 0x2 = 0 ↔ s.done = false := by
  obtain ⟨-, hdone, -, -⟩ := statusWord_bits s
  rw [and_two_eq_zero_iff, hdone]

section WaitLoop

variable {p v l n : Nat} {s t : State} {c : Word}

/-- A step that keeps the program and the level of `rst_n` keeps the host in the loop, where it stands then. -/
theorem Polls.next {m : Nat} (h : Polls p v l s n) (hstep : step s = .next t)
    (hprogram : t.host.program = s.host.program) (hrst : t.rstN = s.rstN) (hstands : StandsAt p v t m) :
    Polls p v l t m :=
  ⟨hprogram ▸ h.loop, hrst.trans h.released, noResetTurns_step h.noReset hstep, hstands⟩

/-- The host in the loop stands at one of its statements, whoever moves, as long as DONE is not cleared. -/
theorem StandsAt.of_host_eq (h : StandsAt p v s n) (hhost : t.host = s.host) (hdone : s.done = true → t.done = true) :
    StandsAt p v t n := by
  cases h with
  | label position => exact .label (by rw [hhost, position])
  | read position => exact .read (by rw [hhost, position])
  | leaving d position assigned bit done =>
    exact .leaving d (by rw [hhost, position]) (by rw [hhost, assigned]) bit (hdone done)
  | repeating d position assigned bit => exact .repeating d (by rw [hhost, position]) (by rw [hhost, assigned]) bit

/-- One turn of the host in the loop leaves the block alone. With DONE = 1 the host leaves the loop or comes nearer to
its end; with DONE = 0 it stays in it. -/
theorem Polls.host_step (h : Polls p v l s n) (hturn : s.nextTurn = .host) :
    ∃ t, step s = .next t ∧ SameBlock s t ∧
      ((s.done = true ∧ t.host.position = p + 3) ∨ ∃ m, Polls p v l t m ∧ (s.done = true → m < n)) := by
  cases h.stands with
  | label position =>
    have hstep := step_of_label (runs_of_position hturn position h.loop.label_at) h.released
    have hstands : StandsAt p v s.dropTurn.advanceHost 2 := .read (by simp [position])
    exact ⟨_, hstep, SameBlock.refl s, .inr ⟨2, h.next hstep rfl rfl hstands, by omega⟩⟩
  | read position =>
    have hstep := step_of_reads (runs_of_position hturn position h.loop.read_at) h.released
    rw [busRead_status rfl] at hstep
    have hassigned := lookupVar_assignVar_same v s.statusWord s.host.vars
    have hposition : s.host.position + 1 = p + 2 := by omega
    cases hdone : s.done with
    | true =>
      have hbit : s.statusWord &&& 0x2 ≠ 0 := mt (statusWord_and_two_eq_zero_iff s).mp (by simp [hdone])
      exact ⟨_, hstep, SameBlock.refl s,
        .inr ⟨1, h.next hstep rfl rfl (.leaving _ hposition hassigned hbit hdone), by omega⟩⟩
    | false =>
      have hbit : s.statusWord &&& 0x2 = 0 := (statusWord_and_two_eq_zero_iff s).mpr hdone
      exact ⟨_, hstep, SameBlock.refl s, .inr ⟨4, h.next hstep rfl rfl (.repeating _ hposition hassigned hbit), nofun⟩⟩
  | leaving d position assigned bit done =>
    have hstep := step_of_bz (runs_of_position hturn position h.loop.branch_at) h.released assigned
    rw [if_neg bit] at hstep
    exact ⟨_, hstep, SameBlock.refl s, .inl ⟨done, by simp [position]⟩⟩
  | repeating d position assigned bit =>
    have hstep := step_of_bz (runs_of_position hturn position h.loop.branch_at) h.released assigned
    rw [if_pos bit, hostJump_declared (s := s.dropTurn) h.loop.target] at hstep
    exact ⟨_, hstep, SameBlock.refl s, .inr ⟨3, h.next hstep rfl rfl (.label rfl), by omega⟩⟩

/-- With the command completed the host leaves the loop: each turn is one of its own or one less in the schedule. -/
theorem Polls.leaves_of_done {fuel : Nat} (h : Polls p v l s n) (hidle : s.phase = .idle) (hdone : s.done = true)
    (hfuel : n + s.schedule.length < fuel) :
    ∃ k t, runFor k s = .next t ∧ t.host.position = p + 3 ∧ SameBlock s t := by
  induction fuel generalizing s n with
  | zero => omega
  | succ fuel ih =>
    rcases nextTurn_of_noResetTurns h.noReset with hturn | hturn
    · obtain ⟨u, hstep, hblock, ⟨-, hposition⟩ | ⟨m, hpolls, hlt⟩⟩ := h.host_step hturn
      · exact ⟨1, u, runFor_succ_next hstep 0, hposition, hblock⟩
      · have hlength : m + u.schedule.length < fuel := by
          have hm := hlt hdone
          rw [schedule_of_step hstep, List.length_tail]
          omega
        obtain ⟨k, t, hrun, hposition, hsame⟩ :=
          ih hpolls (hblock.phase_eq.trans hidle) (hblock.done_eq.trans hdone) hlength
        exact ⟨k + 1, t, (runFor_succ_next hstep k).trans hrun, hposition, hblock.trans hsame⟩
    · have hstep := step_engine_of_idle hturn h.released hidle
      have hnonempty : s.schedule ≠ [] := fun hnil => by
        simp [nextTurn_nil hnil, h.released, State.busy_of_idle hidle] at hturn
      have hlength : n + s.dropTurn.schedule.length < fuel := by
        have hpos := List.length_pos_iff.mpr hnonempty
        rw [State.dropTurn_schedule, List.length_tail]
        omega
      obtain ⟨k, t, hrun, hposition, hsame⟩ :=
        ih (h.next hstep rfl rfl (h.stands.of_host_eq rfl id)) hidle hdone hlength
      exact ⟨k + 1, t, (runFor_succ_next hstep k).trans hrun, hposition, hsame⟩

/-- The completion sets DONE, after which the host leaves the loop. -/
theorem Polls.leaves_of_engine (h : Polls p v l s n) (hbusy : s.phase = .busy c) (hturn : s.nextTurn = .engine) :
    ∃ k t, runFor k s = .next t ∧ t.host.position = p + 3 ∧ SameBlock (complete (outcomeIn c s) s) t := by
  have hstep : step s = .next (complete (outcomeIn c s) s.dropTurn) :=
    step_of_completes ⟨hturn, h.released, hbusy⟩
  have hhost : (complete (outcomeIn c s) s.dropTurn).host = s.host := complete_host _ _
  have hpolls := h.next hstep (congrArg HostAgent.program hhost) (complete_rstN _ _)
    (h.stands.of_host_eq hhost fun _ => complete_done _ _)
  obtain ⟨k, t, hrun, hposition, hsame⟩ :=
    hpolls.leaves_of_done (complete_phase _ _) (complete_done _ _) (Nat.lt_succ_self _)
  have hblock : SameBlock s s.dropTurn := SameBlock.refl s
  exact ⟨k + 1, t, (runFor_succ_next hstep k).trans hrun, hposition, (sameBlock_complete hblock _).trans hsame⟩

/-- While the command executes the host stays in the loop; the engine has its turn at the latest when the schedule has
run out. -/
theorem Polls.leaves_of_busy {schedule : List Turn} (hschedule : s.schedule = schedule) (h : Polls p v l s n)
    (hbusy : s.phase = .busy c) (hdone : s.done = false) :
    ∃ k t, runFor k s = .next t ∧ t.host.position = p + 3 ∧ SameBlock (complete (outcomeIn c s) s) t := by
  induction schedule generalizing s n with
  | nil => exact h.leaves_of_engine hbusy (nextTurn_of_busy_exhausted hschedule hbusy)
  | cons turn rest ih =>
    rcases nextTurn_of_noResetTurns h.noReset with hturn | hturn
    · obtain ⟨u, hstep, hblock, ⟨hset, -⟩ | ⟨m, hpolls, -⟩⟩ := h.host_step hturn
      · simp [hdone] at hset
      · have hrest : u.schedule = rest := by rw [schedule_of_step hstep, hschedule, List.tail_cons]
        obtain ⟨k, t, hrun, hposition, hsame⟩ :=
          ih hrest hpolls (hblock.phase_eq.trans hbusy) (hblock.done_eq.trans hdone)
        rw [hblock.outcomeIn_eq] at hsame
        exact ⟨k + 1, t, (runFor_succ_next hstep k).trans hrun, hposition, (sameBlock_complete hblock _).trans hsame⟩
    · exact h.leaves_of_engine hbusy hturn

end WaitLoop

theorem waitLoopAt_of_programAhead {s : State} {v l : Nat} (h : ProgramAhead s (Pseudo.expand (.waitDone v l)))
    (hlabel : labelPositions l 0 s.host.program = [s.host.position]) :
    WaitLoopAt s.host.program s.host.position v l :=
  have hlength : (Pseudo.expand (.waitDone v l)).length = 3 := rfl
  ⟨stmt_of_programAhead (i := 0) h (by omega), stmt_of_programAhead (i := 1) h (by omega),
    stmt_of_programAhead (i := 2) h (by omega), hlabel⟩

/-- Settles O55: the loop ends with the block as the completion leaves it. -/
theorem waitDoneLoopEnds : Obligations.WaitDoneLoopEnds := by
  intro s c v l hbusy hdone hrst hturns hahead hlabel
  have hpolls : Polls s.host.position v l s 3 := ⟨waitLoopAt_of_programAhead hahead hlabel, hrst, hturns, .label rfl⟩
  obtain ⟨k, t, hrun, hposition, hsame⟩ := hpolls.leaves_of_busy rfl hbusy hdone
  obtain ⟨hopa, hopb, hmod, hres, -, htdone, hcoll, herr, hphase⟩ := hsame
  obtain ⟨copa, copb, cmod, -, ccoll, -, cphase, cdone⟩ := complete_frame (outcomeIn c s) s
  refine ⟨k, t, hrun, hposition, htdone.trans cdone, hphase.trans cphase, hopa.trans copa, hopb.trans copb,
    hmod.trans cmod, hcoll.trans ccoll, ?_⟩
  have hresult : t.res = (complete (outcomeIn c s) s).res ∧ t.errcode = (complete (outcomeIn c s) s).errcode :=
    ⟨hres, herr⟩
  revert hresult
  rw [outcomeIn]
  cases outcome 1024 c s.opa.toNat s.opb.toNat s.mod.toNat <;> exact id

end Sys2Proof.Machine
end
